-- ==== Sys2Proof/Word.lean ====
section
/-! DEFINITION. The widths of the block's words and the closed sets of values that are not words:
signal levels, the carried polarity, samples and what one bit maps to (spec/00_scope.md R7 to R9,
spec/30_encoding.md R70, R78, R80). -/

namespace Sys2Proof

/-- A command word `cmd[4:0]` (R70). -/
abbrev CmdWord := BitVec 5

/-- A scheme code: the `CODE` field and the register `SCHEME` (R73, R23). -/
abbrev SchemeCode := BitVec 4

/-- One binary digit or one 1-bit field: `D`, `OP`, `POL`, a phase (R72, R24, R78). -/
abbrev Bit1 := BitVec 1

/-- An encoded level, 2-bit two's complement (R9). -/
abbrev LevelCode := BitVec 2

/-- One queue entry or output sample, `lvl[1:0]` above `ph` (R26, R78). -/
abbrev SampleWord := BitVec 3

/-- The register `QCNT` (R26). -/
abbrev QueueCount := BitVec 2

/-- The register `ERR` (R27). -/
abbrev ErrCode := BitVec 2

/-- A signal level: an integer of the set −1, 0, +1 (R9). -/
inductive Level where
  | neg
  | zero
  | pos
deriving DecidableEq, Repr

/-- The carried level of a frame: +1 or −1, what `POL` stands for (R10, R24). -/
inductive Polarity where
  | plus
  | minus
deriving DecidableEq, Repr

/-- A sample before it is encoded: a level and a phase bit (R78). -/
structure Sample where
  level : Level
  phase : Bit1
deriving DecidableEq, Repr

/-- The samples of one bit: one, or a pair `a` then `b` (R80).  The phases are not data here: the only
sample has phase 0 (R136), a pair has phases 0 and 1 (R150). -/
inductive BitSamples where
  | single (a : Level)
  | pair (a b : Level)
deriving DecidableEq, Repr

/-- What the symbol mapper answers: the samples and the next carried level `p'` (R80). -/
structure MapResult where
  samples : BitSamples
  carried : Polarity
deriving DecidableEq, Repr

end Sys2Proof
end

