-- ==== Sys2Proof/Config.lean ====
section
/-! DEFINITION. What is fixed for the block (the parameters of spec/00_scope.md R7) and the FREE VALUES:
the register contents the spec leaves unspecified before the first reset edge after power-up (R35, R201)
and after a stop of the clock (R188).  The free values have no body: nothing can be proved of them. -/

namespace Sys2Proof.Config

/-- `NUM_SCHEMES` (R7). -/
def numSchemes : Nat := 9
/-- `CMD_W` (R7). -/
def cmdWidth : Nat := 5
/-- `SCHEME_W` (R7). -/
def schemeWidth : Nat := 4
/-- `LEVEL_W` (R7). -/
def levelWidth : Nat := 2
/-- `QDEPTH` (R7). -/
def queueDepth : Nat := 2
/-- `ERR_W` (R7). -/
def errWidth : Nat := 2
/-- `POL_W` (R7). -/
def polWidth : Nat := 1

/-- `SCHEME` after the n-th loss of the registers (R35, R188; log entry 3). -/
opaque freeScheme : Nat → SchemeCode
/-- `POL` after the n-th loss of the registers (R35, R188; log entry 3). -/
opaque freePol : Nat → Bit1
/-- `ACTIVE` after the n-th loss of the registers (R35, R188; log entry 3). -/
opaque freeActive : Nat → Bool
/-- `QCNT` after the n-th loss of the registers (R35, R188; log entry 3). -/
opaque freeQcnt : Nat → QueueCount
/-- `Q0` after the n-th loss of the registers (R35, R188; log entry 3). -/
opaque freeQ0 : Nat → SampleWord
/-- `Q1` after the n-th loss of the registers (R35, R188; log entry 3). -/
opaque freeQ1 : Nat → SampleWord
/-- `ERR` after the n-th loss of the registers (R35, R188; log entry 3). -/
opaque freeErr : Nat → ErrCode

end Sys2Proof.Config
end

