-- ==== Sys2Proof/Syntax.lean ====
section
/-! DEFINITION. The commands of LCE-CMD v1, one constructor per row of spec/opcode_table.json, the nine
schemes (spec/00_scope.md R2), the errors a command word can raise (spec/60_exceptions.md R171) and the
lines of the assembler (spec/30_encoding.md R81 to R83). -/

namespace Sys2Proof

/-- The nine line-coding schemes, in the order of their codes (R2, R73). -/
inductive Scheme where
  | unipolar
  | nrzl
  | nrzi
  | rz
  | manchester
  | diffManchester
  | ami
  | b8zs
  | hdb3
deriving DecidableEq, Repr

/-- The commands: `BIT d` (R119) and the nine `START` commands (R110 to R118). -/
inductive Instr where
  | bit (d : Bit1)
  | startUnipolar
  | startNrzl
  | startNrzi
  | startRz
  | startManchester
  | startDiffManchester
  | startAmi
  | startB8zs
  | startHdb3
deriving DecidableEq, Repr

/-- The three errors of the block (R171). -/
inductive ErrorKind where
  /-- START with a code 9 to 15 (R172). -/
  | unknownScheme
  /-- A BIT-format word whose reserved bits are not zero (R173). -/
  | illegalCommand
  /-- A legal BIT while no frame is open (R175). -/
  | bitOutsideFrame
deriving DecidableEq, Repr

/-- The outcome of decoding a word (R75): a command, or the error the word raises. -/
inductive Decoded where
  | command (i : Instr)
  | error (e : ErrorKind)
deriving DecidableEq, Repr

/-- One line of assembly: the three commands of R81 and the two pseudo-instructions (R82, R83).  A bit
string is kept as the characters written, so that the assembler can refuse one. -/
inductive AsmLine where
  | start (sc : Scheme)
  | bit (d : Bit1)
  | raw (v : Nat)
  | encode (sc : Scheme) (bits : List Char)
  | compare (bits : List Char)
deriving DecidableEq, Repr

/-- Why the assembler refuses a line (R81, R82). -/
inductive AsmError where
  /-- A scheme name that is none of the nine (R81). -/
  | unknownSchemeName
  /-- `.cmd v` with `v > 0x1F` (R81). -/
  | wordTooWide
  /-- An empty bit string, or one with a character other than 0 and 1 (R82). -/
  | invalidInput
  /-- A line that has none of the forms of R81 to R83. -/
  | badLine
deriving DecidableEq, Repr

/-- The tokens of an assembly line (R81). -/
inductive Token where
  | word (cs : List Char)
  | quoted (cs : List Char)
  | comma
deriving DecidableEq, Repr

end Sys2Proof
end

