-- ==== Sys2Proof/WellFormed.lean ====
section
/-! DEFINITION. The checks on syntax.  A command carries at most one 1-bit field, so its type already
shuts out every ill-formed operand (spec/60_exceptions.md R177: the document's undefined case cannot be
built).  What can be ill-formed is a line of assembly: a raw word above 0x1F (spec/30_encoding.md R81), or
a bit string that is empty or not binary (R82). -/

namespace Sys2Proof

/-- Every command is well formed: its operand is one bit (R72, R74, R177). -/
def Instr.wf : Instr → Bool
  | .bit _ => true
  | .startUnipolar => true
  | .startNrzl => true
  | .startNrzi => true
  | .startRz => true
  | .startManchester => true
  | .startDiffManchester => true
  | .startAmi => true
  | .startB8zs => true
  | .startHdb3 => true

/-- A binary digit as it is written (R82). -/
def isBinaryDigit (c : Char) : Bool := c == '0' || c == '1'

/-- The host's and the assembler's validation of a bit string: not empty, every character 0 or 1
(R82, R176). -/
def validBits (bits : List Char) : Bool := !bits.isEmpty && bits.all isBinaryDigit

/-- A line the assembler does not refuse (R81 to R83). -/
def AsmLine.wf : AsmLine → Bool
  | .start _ => true
  | .bit _ => true
  | .raw v => decide (v ≤ 0x1F)
  | .encode _ bits => validBits bits
  | .compare bits => validBits bits

end Sys2Proof
end

