-- ==== Sys2Proof/Decode.lean ====
section
/-! DEFINITION. The decoder, total on every 5-bit word and rejecting by the name of an error
(spec/30_encoding.md R70 to R77), and after it the encoder, written from the same formats. -/

namespace Sys2Proof

/-- `OP = cmd[4]` (R70). -/
def opField (w : CmdWord) : Bit1 := w.extractLsb' 4 1

/-- `CODE = cmd[3:0]` of format CMD-S (R71). -/
def codeField (w : CmdWord) : SchemeCode := w.extractLsb' 0 4

/-- `RSV = cmd[3:1]` of format CMD-B (R72). -/
def rsvField (w : CmdWord) : BitVec 3 := w.extractLsb' 1 3

/-- `D = cmd[0]` of format CMD-B (R72). -/
def dField (w : CmdWord) : Bit1 := w.extractLsb' 0 1

/-- The scheme of a code: codes 0 to 8 in the order of R73, no scheme for 9 to 15. -/
def schemeOfCode (c : SchemeCode) : Option Scheme :=
  match c.toNat with
  | 0 => some .unipolar
  | 1 => some .nrzl
  | 2 => some .nrzi
  | 3 => some .rz
  | 4 => some .manchester
  | 5 => some .diffManchester
  | 6 => some .ami
  | 7 => some .b8zs
  | 8 => some .hdb3
  | _ => none

/-- The START command of a scheme (R110 to R118). -/
def startInstr : Scheme → Instr
  | .unipolar => .startUnipolar
  | .nrzl => .startNrzl
  | .nrzi => .startNrzi
  | .rz => .startRz
  | .manchester => .startManchester
  | .diffManchester => .startDiffManchester
  | .ami => .startAmi
  | .b8zs => .startB8zs
  | .hdb3 => .startHdb3

/-- Decoding reads only the word (R75): OP chooses the format; a code above 8 is UnknownScheme, a
nonzero RSV is IllegalCommand. -/
def decode (w : CmdWord) : Decoded :=
  if opField w = 1#1 then
    match schemeOfCode (codeField w) with
    | some sc => .command (startInstr sc)
    | none => .error .unknownScheme
  else if rsvField w = 0#3 then .command (.bit (dField w))
  else .error .illegalCommand

/-- The code of a scheme (R73). -/
def Scheme.code : Scheme → SchemeCode
  | .unipolar => 0#4
  | .nrzl => 1#4
  | .nrzi => 2#4
  | .rz => 3#4
  | .manchester => 4#4
  | .diffManchester => 5#4
  | .ami => 6#4
  | .b8zs => 7#4
  | .hdb3 => 8#4

/-- Format CMD-S: OP = 1 above CODE (R71). -/
def encodeStart (c : SchemeCode) : CmdWord := 1#1 ++ c

/-- Format CMD-B: OP = 0, RSV = 000, D (R72). -/
def encodeBitWord (d : Bit1) : CmdWord := (0#1 ++ 0#3) ++ d

/-- The word of a command (R71, R72, R110 to R119). -/
def encode : Instr → CmdWord
  | .bit d => encodeBitWord d
  | .startUnipolar => encodeStart 0#4
  | .startNrzl => encodeStart 1#4
  | .startNrzi => encodeStart 2#4
  | .startRz => encodeStart 3#4
  | .startManchester => encodeStart 4#4
  | .startDiffManchester => encodeStart 5#4
  | .startAmi => encodeStart 6#4
  | .startB8zs => encodeStart 7#4
  | .startHdb3 => encodeStart 8#4

/-- The 5-bit word that the lowest `nbits` bits of `w` stand for.  The command port has five wires
(R32), so a number above 0x1F is no command word. -/
def commandWord (nbits w : Nat) : Option CmdWord :=
  if w % 2 ^ nbits < 32 then some (BitVec.ofNat 5 (w % 2 ^ nbits)) else none

/-- The command the decoder reads from a word numbered as spec/opcode_table.json numbers it. -/
def decodeTableWord (nbits w : Nat) : Option Instr :=
  match commandWord nbits w with
  | none => none
  | some c =>
    match decode c with
    | .command i => some i
    | .error _ => none

end Sys2Proof
end

