-- ==== Sys2Proof/Machine/State.lean ====
section
/-! DEFINITION. The state: the block's seven registers, exactly those of spec/10_state.md R20, and beside
them the model's own fields (log entries 1 to 4): what the host will drive, what was seen at the ports,
whether a reset edge has happened, and a counter of free values. -/

namespace Sys2Proof.Machine

/-- The four inputs of one cycle (R31 to R33), each wire 0 or 1 (R103). -/
structure Inputs where
  /-- `rst` (R31). -/
  rst : Bool
  /-- `cmd_valid` (R32). -/
  cmdValid : Bool
  /-- `cmd[4:0]` (R32). -/
  cmd : CmdWord
  /-- `out_ready` (R33). -/
  outReady : Bool
deriving DecidableEq, Repr

/-- What the block drives in one cycle (R32 to R34). -/
structure Outputs where
  /-- `cmd_ready` (R92). -/
  cmdReady : Bool
  /-- `out_valid` (R91). -/
  outValid : Bool
  /-- `out_level[1:0]` (R91). -/
  outLevel : LevelCode
  /-- `out_phase` (R91). -/
  outPhase : Bit1
  /-- `status_active` (R34). -/
  statusActive : Bool
  /-- `status_scheme[3:0]` (R34). -/
  statusScheme : SchemeCode
  /-- `status_err[1:0]` (R34). -/
  statusErr : ErrCode
  /-- `status_busy` (R34). -/
  statusBusy : Bool
deriving DecidableEq, Repr

/-- What the outside world does next: it drives one cycle's inputs up to the rising edge (R90), or it
stops and restarts the clock (R188). -/
inductive HostEvent where
  | cycle (i : Inputs)
  | clockStop
deriving DecidableEq, Repr

/-- What has been seen at the ports: one cycle with its inputs and outputs, or a stop of the clock. -/
inductive TraceEntry where
  | edge (i : Inputs) (o : Outputs)
  | clockStopped
deriving DecidableEq, Repr

/-- The state of the model. -/
structure State where
  /-- `SCHEME[3:0]`: code of the scheme of the open or last frame (R23). -/
  scheme : SchemeCode
  /-- `POL`: the polarity state register, 0 is +1 and 1 is −1 (R24). -/
  pol : Bit1
  /-- `ACTIVE`: a frame is open (R25). -/
  active : Bool
  /-- `QCNT[1:0]`: samples in the output queue (R26). -/
  qcnt : QueueCount
  /-- `Q0[2:0]`: the head sample (R26). -/
  q0 : SampleWord
  /-- `Q1[2:0]`: the second sample (R26). -/
  q1 : SampleWord
  /-- `ERR[1:0]`: the first error code since reset (R27). -/
  err : ErrCode
  /-- The model's own: a reset edge has happened since the registers were last unspecified (R201). -/
  resetSeen : Bool
  /-- The model's own: how often the registers have been drawn anew (log entry 3). -/
  draws : Nat
  /-- The model's own: what the host will do, next first (log entry 1). -/
  stimulus : List HostEvent
  /-- The model's own: what was seen at the ports, oldest first (log entry 2). -/
  trace : List TraceEntry
deriving DecidableEq, Repr

/-- Why the machine stops with a fault.  There is no such reason: an error of this block is a status
event after which it goes on (R170, R180), so this type has no constructor. -/
inductive Fault
deriving DecidableEq, Repr

/-- Why the model gives a step no meaning. -/
inductive Refusal where
  /-- An instruction without a meaning: raised by an arm of `exec` only, and no arm raises it.  Safe. -/
  | notModelled (mnemonic : String)
  /-- The host offers a command or takes a sample before the first reset edge after power-up, where R201
  tells a model to refuse the run, or after a clock stop (log entry 10): raised by a clock edge.  Safe. -/
  | handshakeBeforeReset
  /-- A BIT in an open frame whose `SCHEME` is 9 to 15: raised by the meaning of BIT.  MAP has no such
  row (R80), the state is unreachable (R28) and U6 lets a model refuse it.  Safe. -/
  | schemeCodeUnassigned
deriving DecidableEq, Repr

/-- The state right after a reset edge (R35, R202): every register 0; nothing offered, nothing seen. -/
def State.reset : State where
  scheme := 0#4
  pol := 0#1
  active := false
  qcnt := 0#2
  q0 := 0#3
  q1 := 0#3
  err := 0#2
  resetSeen := true
  draws := 0
  stimulus := []
  trace := []

end Sys2Proof.Machine
end

