-- ==== Sys2Proof/Machine/Operands.lean ====
section
/-! DEFINITION. Values and their codes: levels, polarities, samples (spec/00_scope.md R9 to R11,
spec/30_encoding.md R78).  The only operand of a command is the bit `D`, which the decoder has already
taken out of the word (R74). -/

namespace Sys2Proof.Machine

/-- The integer a level is (R9). -/
def levelInt : Level → Int
  | .neg => -1
  | .zero => 0
  | .pos => 1

/-- `enc`: 2-bit two's complement (R9). -/
def enc : Level → LevelCode
  | .neg => 0b11#2
  | .zero => 0b00#2
  | .pos => 0b01#2

/-- `dec`: the inverse of `enc` on the three codes; `2'b10` is no level (R9). -/
def dec (c : LevelCode) : Option Level :=
  if c = 0b11#2 then some .neg
  else if c = 0b00#2 then some .zero
  else if c = 0b01#2 then some .pos
  else none

/-- `pol_val`: `POL = 0` is +1, `POL = 1` is −1 (R10). -/
def polVal (b : Bit1) : Polarity := if b = 0#1 then .plus else .minus

/-- `pol_bit`: the inverse of `pol_val` (R10). -/
def polBit : Polarity → Bit1
  | .plus => 0#1
  | .minus => 1#1

/-- `neg`: negation of a level of the set −1, +1 (R10, R11). -/
def negPol : Polarity → Polarity
  | .plus => .minus
  | .minus => .plus

/-- A carried level seen as a level (R10). -/
def polLevel : Polarity → Level
  | .plus => .pos
  | .minus => .neg

/-- The 3-bit word of a sample: the encoded level above the phase (R26, R78). -/
def sampleWord (x : Sample) : SampleWord := enc x.level ++ x.phase

/-- The level bits `[2:1]` of a queue entry (R26). -/
def sampleLevel (w : SampleWord) : LevelCode := w.extractLsb' 1 2

/-- The phase bit `[0]` of a queue entry (R26). -/
def samplePhase (w : SampleWord) : Bit1 := w.extractLsb' 0 1

/-- The list `samples` of R80: the only sample has phase 0; a pair has phases 0, 1 (R136, R150). -/
def sampleList : BitSamples → List Sample
  | .single a => [⟨a, 0#1⟩]
  | .pair a b => [⟨a, 0#1⟩, ⟨b, 1#1⟩]

end Sys2Proof.Machine
end

