-- ==== Sys2Proof/Machine/Flags.lean ====
section
/-! DEFINITION. The two status flags (spec/10_state.md R36): `ACTIVE` and `ERR`.  There are no condition
codes. -/

namespace Sys2Proof.Machine

/-- The code of an error (R171). -/
def errorCode : ErrorKind → ErrCode
  | .unknownScheme => 1#2
  | .illegalCommand => 2#2
  | .bitOutsideFrame => 3#2

/-- `ERR` after an error: the first code since reset is kept (R27, R170). -/
def firstError (old : ErrCode) (e : ErrorKind) : ErrCode :=
  if old = 0#2 then errorCode e else old

/-- `ACTIVE` after an accepted START with a legal code (R25, R36). -/
def activeAfterStart : Bool := true

/-- `ACTIVE` after an error (R25, R36, R170). -/
def activeAfterError : Bool := false

end Sys2Proof.Machine
end

