-- ==== Sys2Proof/Machine/Ops.lean ====
section
/-! DEFINITION. The named operations over the registers: opening a frame, the error action (the block's one
way of taking an exception), loading and popping the output queue, reset, and the loss of the registers. -/

namespace Sys2Proof.Machine

/-- What every START writes at its accepting edge: `SCHEME`, the seed in `POL`, and `ACTIVE` (R110 to
R118). -/
def State.openFrame (code : SchemeCode) (seed : Polarity) (s : State) : State :=
  { s with scheme := code, pol := polBit seed, active := activeAfterStart }

/-- THE ERROR ACTION (R170): the open frame ends and the first error code since reset is kept; nothing
else changes.  Nothing is saved, no mode changes and control goes nowhere (R180); there is no return from
an error (R181): the host reopens encoding with a START. -/
def State.raiseError (e : ErrorKind) (s : State) : State :=
  { s with active := activeAfterError, err := firstError s.err e }

/-- `POL <- pol_bit(p')` (R119). -/
def State.writePol (p : Polarity) (s : State) : State := { s with pol := polBit p }

/-- A BIT's samples become the queue: `QCNT` is their number, `Q0` the first; `Q1` is written only by a
pair (R119, R136, R150).  On an empty queue, the only one a command meets (R97), this is `emit` and
`expand` of R10. -/
def State.loadSamples (x : BitSamples) (s : State) : State :=
  match x with
  | .single a => { s with qcnt := 1#2, q0 := sampleWord ⟨a, 0#1⟩ }
  | .pair a b => { s with qcnt := 2#2, q0 := sampleWord ⟨a, 0#1⟩, q1 := sampleWord ⟨b, 1#1⟩ }

/-- The delivery of the head sample (R95): of two samples the second moves up and `Q1` keeps its stale
value; otherwise the queue becomes empty and `Q0` keeps its stale value. -/
def State.popQueue (s : State) : State :=
  if s.qcnt = 2#2 then { s with q0 := s.q1, qcnt := 1#2 } else { s with qcnt := 0#2 }

/-- A reset edge: every register takes its reset value (R35, R94). -/
def State.resetRegisters (s : State) : State :=
  { s with scheme := 0#4, pol := 0#1, active := false, qcnt := 0#2, q0 := 0#3, q1 := 0#3,
           err := 0#2, resetSeen := true }

/-- The registers become unspecified: free values, drawn anew (R35, R188, R201; log entry 3). -/
def State.loseRegisters (s : State) : State :=
  { s with scheme := Config.freeScheme s.draws, pol := Config.freePol s.draws,
           active := Config.freeActive s.draws, qcnt := Config.freeQcnt s.draws,
           q0 := Config.freeQ0 s.draws, q1 := Config.freeQ1 s.draws, err := Config.freeErr s.draws,
           resetSeen := false, draws := s.draws + 1 }

/-- The state at power-up, before any reset edge: every register is a free value (R35, R201). -/
def State.powerUp (stimulus : List HostEvent) : State :=
  State.loseRegisters { State.reset with stimulus := stimulus }

/-- The live part of the output queue as a list, head first (R26, R37). -/
def State.queue (s : State) : List SampleWord :=
  if s.qcnt = 0#2 then [] else if s.qcnt = 1#2 then [s.q0] else [s.q0, s.q1]

end Sys2Proof.Machine
end

