-- ==== Sys2Proof/Machine/DualSample.lean ====
section
/-! DEFINITION. The mapper rules of the three dual-sample schemes (spec/43_dual_sample.md R152 to R154):
from the bit and the carried level to a pair of levels and the next carried level. -/

namespace Sys2Proof.Machine

/-- RZ: 1 is (+1, 0), 0 is (−1, 0); the carried level is not read (R152). -/
def mapRz (d : Bit1) (p : Polarity) : MapResult :=
  ⟨.pair (if d = 1#1 then .pos else .neg) .zero, p⟩

/-- Manchester: 1 is (+1, −1), 0 is (−1, +1); the carried level is not read (R153). -/
def mapManchester (d : Bit1) (p : Polarity) : MapResult :=
  let a : Polarity := if d = 1#1 then .plus else .minus
  ⟨.pair (polLevel a) (polLevel (negPol a)), p⟩

/-- Differential Manchester: invert the carried level on 0, keep it on 1, then emit (level, −level); the
level carried on is the FIRST half (R154, R155). -/
def mapDiffManchester (d : Bit1) (p : Polarity) : MapResult :=
  let p' := if d = 0#1 then negPol p else p
  ⟨.pair (polLevel p') (polLevel (negPol p')), p'⟩

end Sys2Proof.Machine
end

