-- ==== Sys2Proof/Machine/SingleSample.lean ====
section
/-! DEFINITION. The mapper rules of the six single-sample schemes (spec/42_single_sample.md R130 to R135):
from the bit and the carried level to one level and the next carried level. -/

namespace Sys2Proof.Machine

/-- Unipolar: 1 is +1, 0 is 0; the carried level is not read (R130). -/
def mapUnipolar (d : Bit1) (p : Polarity) : MapResult :=
  ⟨.single (if d = 1#1 then .pos else .zero), p⟩

/-- NRZ-L: 1 is +1, 0 is −1; the carried level is not read (R131). -/
def mapNrzl (d : Bit1) (p : Polarity) : MapResult :=
  ⟨.single (if d = 1#1 then .pos else .neg), p⟩

/-- NRZ-I: the level inverts on 1 and holds on 0; the level after the update is emitted (R132). -/
def mapNrzi (d : Bit1) (p : Polarity) : MapResult :=
  let p' := if d = 1#1 then negPol p else p
  ⟨.single (polLevel p'), p'⟩

/-- AMI: 0 is level 0 and keeps the polarity; 1 flips the polarity and emits it (R133). -/
def mapAmi (d : Bit1) (p : Polarity) : MapResult :=
  if d = 1#1 then ⟨.single (polLevel (negPol p)), negPol p⟩ else ⟨.single .zero, p⟩

/-- B8ZS: exactly AMI, no zero-substitution (R134, R3). -/
def mapB8zs (d : Bit1) (p : Polarity) : MapResult := mapAmi d p

/-- HDB3: exactly AMI, no zero-substitution (R135, R3). -/
def mapHdb3 (d : Bit1) (p : Polarity) : MapResult := mapAmi d p

end Sys2Proof.Machine
end

