-- ==== Sys2Proof/Machine/FrameControl.lean ====
section
/-! DEFINITION. The meanings of the ten commands (spec/41_frame_control.md R110 to R119), each the effect of
the command at its accepting edge on the state after that edge's delivery (R96, R97). -/

namespace Sys2Proof.Machine

/-- The symbol mapper `MAP` (R80): the rule of the scheme applied to the bit and the carried level. -/
def symbolMap : Scheme → Bit1 → Polarity → MapResult
  | .unipolar => mapUnipolar
  | .nrzl => mapNrzl
  | .nrzi => mapNrzi
  | .rz => mapRz
  | .manchester => mapManchester
  | .diffManchester => mapDiffManchester
  | .ami => mapAmi
  | .b8zs => mapB8zs
  | .hdb3 => mapHdb3

/-- The seed a START writes, per scheme (R24, R73, R110 to R118). -/
def seed : Scheme → Polarity
  | .unipolar => .plus
  | .nrzl => .plus
  | .nrzi => .plus
  | .rz => .plus
  | .manchester => .plus
  | .diffManchester => .plus
  | .ami => .minus
  | .b8zs => .minus
  | .hdb3 => .minus

/-- Opening a frame of a scheme: its code, its seed, the frame open (R110 to R118). -/
def startScheme (sc : Scheme) (s : State) : Host.Outcome State Fault Refusal :=
  .next (s.openFrame sc.code (seed sc))

/-- `START UNIPOLAR` (R110). -/
def execStartUnipolar (s : State) : Host.Outcome State Fault Refusal := startScheme .unipolar s
/-- `START NRZL` (R111). -/
def execStartNrzl (s : State) : Host.Outcome State Fault Refusal := startScheme .nrzl s
/-- `START NRZI` (R112). -/
def execStartNrzi (s : State) : Host.Outcome State Fault Refusal := startScheme .nrzi s
/-- `START RZ` (R113). -/
def execStartRz (s : State) : Host.Outcome State Fault Refusal := startScheme .rz s
/-- `START MANCHESTER` (R114). -/
def execStartManchester (s : State) : Host.Outcome State Fault Refusal := startScheme .manchester s
/-- `START DIFFMANCHESTER` (R115). -/
def execStartDiffManchester (s : State) : Host.Outcome State Fault Refusal :=
  startScheme .diffManchester s
/-- `START AMI` (R116). -/
def execStartAmi (s : State) : Host.Outcome State Fault Refusal := startScheme .ami s
/-- `START B8ZS` (R117). -/
def execStartB8zs (s : State) : Host.Outcome State Fault Refusal := startScheme .b8zs s
/-- `START HDB3` (R118). -/
def execStartHdb3 (s : State) : Host.Outcome State Fault Refusal := startScheme .hdb3 s

/-- One bit of an open frame (R119): the samples of `MAP` become the queue and the next carried level goes
to `POL`. -/
def encodeBit (sc : Scheme) (d : Bit1) (s : State) : State :=
  (s.loadSamples (symbolMap sc d (polVal s.pol)).samples).writePol
    (symbolMap sc d (polVal s.pol)).carried

/-- `BIT d` (R119): outside a frame it raises BitOutsideFrame (R175); inside, the rule of `SCHEME` encodes
the bit.  A `SCHEME` of 9 to 15 has no rule (R28, U6; log entry 5). -/
def execBit (d : Bit1) (s : State) : Host.Outcome State Fault Refusal :=
  if s.active then
    match schemeOfCode s.scheme with
    | some sc => .next (encodeBit sc d s)
    | none => .refused .schemeCodeUnassigned
  else .next (s.raiseError .bitOutsideFrame)

end Sys2Proof.Machine
end

