-- ==== Sys2Proof/Machine/Dispatch.lean ====
section
/-! DEFINITION. One arm per command, each a direct call of its meaning (spec/40_pipeline.md R98). -/

namespace Sys2Proof.Machine

def exec (i : Instr) (s : State) : Host.Outcome State Fault Refusal :=
  match i with
  | .bit d => Sys2Proof.Machine.execBit d s
  | .startUnipolar => Sys2Proof.Machine.execStartUnipolar s
  | .startNrzl => Sys2Proof.Machine.execStartNrzl s
  | .startNrzi => Sys2Proof.Machine.execStartNrzi s
  | .startRz => Sys2Proof.Machine.execStartRz s
  | .startManchester => Sys2Proof.Machine.execStartManchester s
  | .startDiffManchester => Sys2Proof.Machine.execStartDiffManchester s
  | .startAmi => Sys2Proof.Machine.execStartAmi s
  | .startB8zs => Sys2Proof.Machine.execStartB8zs s
  | .startHdb3 => Sys2Proof.Machine.execStartHdb3 s

end Sys2Proof.Machine
end

