-- ==== Sys2Proof/Machine/Ports.lean ====
section
/-! DEFINITION. What the block drives during a cycle, from the registers at its start and the cycle's
inputs (spec/40_pipeline.md R91 to R93), and which handshakes complete at its edge (R95, R96). -/

namespace Sys2Proof.Machine

/-- `out_valid` (R91): it does not depend on `out_ready`. -/
def outValid (s : State) (i : Inputs) : Bool := !i.rst && decide (s.qcnt ≠ 0#2)

/-- `out_level` (R91): zero while no sample is offered. -/
def outLevel (s : State) (i : Inputs) : LevelCode :=
  if outValid s i then sampleLevel s.q0 else 0b00#2

/-- `out_phase` (R91): zero while no sample is offered. -/
def outPhase (s : State) (i : Inputs) : Bit1 :=
  if outValid s i then samplePhase s.q0 else 0#1

/-- `cmd_ready` (R92): the queue will be empty after this edge's delivery. -/
def cmdReady (s : State) (i : Inputs) : Bool :=
  !i.rst && (decide (s.qcnt = 0#2) || (decide (s.qcnt = 1#2) && i.outReady))

/-- `status_busy` (R34). -/
def statusBusy (s : State) : Bool := decide (s.qcnt ≠ 0#2)

/-- All outputs of a cycle (R91 to R93, R34). -/
def outputs (s : State) (i : Inputs) : Outputs where
  cmdReady := cmdReady s i
  outValid := outValid s i
  outLevel := outLevel s i
  outPhase := outPhase s i
  statusActive := s.active
  statusScheme := s.scheme
  statusErr := s.err
  statusBusy := statusBusy s

/-- A sample is delivered at the edge (R33, R95); `out_valid` already says `rst = 0`. -/
def delivers (s : State) (i : Inputs) : Bool := outValid s i && i.outReady

/-- The command is accepted at the edge (R32, R96); `cmd_ready` already says `rst = 0`. -/
def accepts (s : State) (i : Inputs) : Bool := i.cmdValid && cmdReady s i

end Sys2Proof.Machine
end

