-- ==== Sys2Proof/Machine/Clock.lean ====
section
/-! DEFINITION. One rising edge of the clock (spec/40_pipeline.md R94 to R98) around the meanings, and the
model's step: the next thing the host does. -/

namespace Sys2Proof.Machine

/-- The inputs of a cycle in which the host does nothing (log entry 1). -/
def idleInputs : Inputs := ⟨false, false, 0#5, false⟩

/-- The next thing the host does; a host that says no more leaves its wires idle (log entry 1). -/
def nextEvent (s : State) : HostEvent :=
  match s.stimulus with
  | [] => .cycle idleInputs
  | e :: _ => e

/-- The model's own bookkeeping of an event: it is taken from the stimulus and written to the trace (log
entries 1 and 2). -/
def State.record (e : TraceEntry) (s : State) : State :=
  { s with stimulus := s.stimulus.tail, trace := s.trace ++ [e] }

/-- The bookkeeping of one cycle: its inputs, and what the block drives in it. -/
def State.recordCycle (i : Inputs) (s : State) : State := s.record (.edge i (outputs s i))

/-- `execute` (R98): a command runs its meaning, an error word runs the error action (R170, R172,
R173). -/
def execute (x : Decoded) (s : State) : Host.Outcome State Fault Refusal :=
  match x with
  | .command i => exec i s
  | .error e => .next (s.raiseError e)

/-- A run that offers a command or takes a sample before the first reset edge is refused (R201, U3), and
after a clock stop likewise until the next one (log entry 10). -/
def handshakeBeforeReset (s : State) (i : Inputs) : Bool :=
  !s.resetSeen && !i.rst && (i.cmdValid || (i.outReady && outValid s i))

/-- The registers after this edge's delivery (R95). -/
def State.afterDelivery (i : Inputs) (s : State) : State :=
  if delivers s i then s.popQueue else s

/-- What the block writes at a rising edge: reset before everything (R94), then the delivery (R95), then
the accepted command on the state after it (R96, R97). -/
def clockEdge (i : Inputs) (s : State) : Host.Outcome State Fault Refusal :=
  if i.rst then .next s.resetRegisters
  else if handshakeBeforeReset s i then .refused .handshakeBeforeReset
  else if accepts s i then execute (decode i.cmd) (s.afterDelivery i)
  else .next (s.afterDelivery i)

/-- One event of the host: a clock cycle, or a stop of the clock after which no register is known
(R188; log entry 3). -/
def hostStep (s : State) : Host.Outcome State Fault Refusal :=
  match nextEvent s with
  | .cycle i => clockEdge i (s.recordCycle i)
  | .clockStop => .next (s.record .clockStopped).loseRegisters

/-- The cycle in which the host offers a word and takes a sample if one is offered. -/
def offerWord (w : CmdWord) : HostEvent := .cycle ⟨false, true, w, true⟩

/-- `s` with a word offered in the very next cycle, and nothing in the way of its acceptance: after a
reset edge, and with at most the one sample that this cycle delivers (log entry 4). -/
def State.placeCommand (w : CmdWord) (s : State) : State :=
  { s with resetSeen := true,
           qcnt := if s.qcnt = 0#2 ∨ s.qcnt = 1#2 then s.qcnt else 0#2,
           stimulus := offerWord w :: s.stimulus }

end Sys2Proof.Machine
end

