-- ==== Sys2Proof/Machine/Step.lean ====
section
/-! DEFINITION. The step, and where a step finds its next command: on the command port, in the next cycle
the host drives (spec/10_state.md R21, R32).  Both only call operations of Clock.lean. -/

namespace Sys2Proof.Machine

/-- One event of the host (R90). -/
def step (s : State) : Host.Outcome State Fault Refusal := hostStep s

/-- `s` with the word `w` offered in the next cycle; a number that is no 5-bit word is not placed (R70,
R81). -/
def State.withFetchWord (s : State) (nbits w : Nat) : State :=
  match commandWord nbits w with
  | none => s
  | some c => s.placeCommand c

end Sys2Proof.Machine
end

