-- ==== Sys2Proof/Machine/Assembler.lean ====
section
/-! DEFINITION. The assembler (spec/30_encoding.md R81 to R83): lines of assembly to command words, the
pseudo-instructions ENCODE and COMPARE, and the text of a line to the line. -/

namespace Sys2Proof.Machine

/-- The nine schemes in code order (R73, R83). -/
def allSchemes : List Scheme :=
  [.unipolar, .nrzl, .nrzi, .rz, .manchester, .diffManchester, .ami, .b8zs, .hdb3]

/-- The mnemonic of a scheme (R73). -/
def schemeMnemonic : Scheme → List Char
  | .unipolar => ['U', 'N', 'I', 'P', 'O', 'L', 'A', 'R']
  | .nrzl => ['N', 'R', 'Z', 'L']
  | .nrzi => ['N', 'R', 'Z', 'I']
  | .rz => ['R', 'Z']
  | .manchester => ['M', 'A', 'N', 'C', 'H', 'E', 'S', 'T', 'E', 'R']
  | .diffManchester => ['D', 'I', 'F', 'F', 'M', 'A', 'N', 'C', 'H', 'E', 'S', 'T', 'E', 'R']
  | .ami => ['A', 'M', 'I']
  | .b8zs => ['B', '8', 'Z', 'S']
  | .hdb3 => ['H', 'D', 'B', '3']

/-- The document's name of a scheme, which the assembler takes in double quotes (R73, R81). -/
def schemeName : Scheme → List Char
  | .unipolar => ['U', 'n', 'i', 'p', 'o', 'l', 'a', 'r']
  | .nrzl => ['N', 'R', 'Z', '-', 'L']
  | .nrzi => ['N', 'R', 'Z', '-', 'I']
  | .rz => ['R', 'Z']
  | .manchester => ['M', 'a', 'n', 'c', 'h', 'e', 's', 't', 'e', 'r']
  | .diffManchester =>
    ['D', 'i', 'f', 'f', 'e', 'r', 'e', 'n', 't', 'i', 'a', 'l', ' '] ++
      ['M', 'a', 'n', 'c', 'h', 'e', 's', 't', 'e', 'r']
  | .ami => ['A', 'M', 'I']
  | .b8zs => ['B', '8', 'Z', 'S']
  | .hdb3 => ['H', 'D', 'B', '3']

/-- The bit a character of a valid bit string stands for (R82). -/
def digitBit (c : Char) : Bit1 := if c = '1' then 1#1 else 0#1

/-- The words of one frame: START, then one BIT per character, left to right (R82). -/
def frameWords (sc : Scheme) (bits : List Bit1) : List CmdWord :=
  encode (startInstr sc) :: bits.map (fun d => encode (.bit d))

/-- The words of a line, or why it is refused (R81 to R83). -/
def assembleLine : AsmLine → Except AsmError (List CmdWord)
  | .start sc => .ok [0x10#5 ||| sc.code.setWidth 5]
  | .bit d => .ok [0x00#5 ||| d.setWidth 5]
  | .raw v => if v ≤ 0x1F then .ok [BitVec.ofNat 5 v] else .error .wordTooWide
  | .encode sc bits =>
    if validBits bits then .ok (frameWords sc (bits.map digitBit)) else .error .invalidInput
  | .compare bits =>
    if validBits bits then .ok (allSchemes.flatMap fun sc => frameWords sc (bits.map digitBit))
    else .error .invalidInput

/-- The words of a sequence of lines, or the first refusal. -/
def assembleLines : List AsmLine → Except AsmError (List CmdWord)
  | [] => .ok []
  | l :: ls =>
    match assembleLine l, assembleLines ls with
    | .error e, _ => .error e
    | .ok _, .error e => .error e
    | .ok ws, .ok rest => .ok (ws ++ rest)

/-- A word that the lexer has gathered in reverse, put before the later tokens. -/
def flushWord (acc : List Char) (ts : List Token) : List Token :=
  if acc.isEmpty then ts else .word acc.reverse :: ts

/-- One line to tokens (R81): blanks separate, `;` starts a comment, double quotes hold a name or a bit
string.  The flag says that the lexer stands inside quotes. -/
def lexLine : List Char → List Char → Bool → Except AsmError (List Token)
  | [], acc, false => .ok (flushWord acc [])
  | [], _, true => .error .badLine
  | c :: cs, acc, true =>
    if c = '"' then (lexLine cs [] false).map (Token.quoted acc.reverse :: ·)
    else lexLine cs (c :: acc) true
  | c :: cs, acc, false =>
    if c = ';' then .ok (flushWord acc [])
    else if c = '"' then (lexLine cs [] true).map (flushWord acc)
    else if c = ',' then (lexLine cs [] false).map (fun ts => flushWord acc (Token.comma :: ts))
    else if c.isWhitespace then (lexLine cs [] false).map (flushWord acc)
    else lexLine cs (c :: acc) false

/-- A scheme operand: a mnemonic in either case, or a document name in quotes as written (R81). -/
def schemeOperand : Token → Except AsmError Scheme
  | .word cs =>
    match allSchemes.find? (fun sc => schemeMnemonic sc == cs.map Char.toUpper) with
    | some sc => .ok sc
    | none => .error .unknownSchemeName
  | .quoted cs =>
    match allSchemes.find? (fun sc => schemeName sc == cs) with
    | some sc => .ok sc
    | none => .error .unknownSchemeName
  | .comma => .error .badLine

/-- The value of a hexadecimal digit. -/
def hexDigit (c : Char) : Option Nat :=
  if '0' ≤ c ∧ c ≤ '9' then some (c.toNat - 48)
  else if 'A' ≤ c ∧ c ≤ 'F' then some (c.toNat - 55)
  else none

/-- The value of hexadecimal digits, most significant first. -/
def hexValue : List Char → Nat → Option Nat
  | [], n => some n
  | c :: cs, n =>
    match hexDigit c with
    | some d => hexValue cs (16 * n + d)
    | none => none

/-- The operand of `.cmd`: `0x` and at least one hexadecimal digit (R81; log entry 8). -/
def hexOperand (cs : List Char) : Except AsmError Nat :=
  match cs.map Char.toUpper with
  | '0' :: 'X' :: d :: ds =>
    match hexValue (d :: ds) 0 with
    | some n => .ok n
    | none => .error .badLine
  | _ => .error .badLine

/-- The operands of each mnemonic (R81 to R83). -/
def parseOperands (mnemonic : List Char) (args : List Token) : Except AsmError AsmLine :=
  if mnemonic = ['S', 'T', 'A', 'R', 'T'] then
    match args with
    | [a] => (schemeOperand a).map AsmLine.start
    | _ => .error .badLine
  else if mnemonic = ['B', 'I', 'T'] then
    match args with
    | [.word ['0']] => .ok (.bit 0#1)
    | [.word ['1']] => .ok (.bit 1#1)
    | _ => .error .badLine
  else if mnemonic = ['.', 'C', 'M', 'D'] then
    match args with
    | [.word cs] => (hexOperand cs).map AsmLine.raw
    | _ => .error .badLine
  else if mnemonic = ['E', 'N', 'C', 'O', 'D', 'E'] then
    match args with
    | [a, .comma, .quoted bits] => (schemeOperand a).map (AsmLine.encode · bits)
    | _ => .error .badLine
  else if mnemonic = ['C', 'O', 'M', 'P', 'A', 'R', 'E'] then
    match args with
    | [.quoted bits] => .ok (.compare bits)
    | _ => .error .badLine
  else .error .badLine

/-- The line a text line stands for; none for a blank line or a comment (R81). -/
def parseLine (text : List Char) : Except AsmError (Option AsmLine) :=
  match lexLine text [] false with
  | .error e => .error e
  | .ok [] => .ok none
  | .ok (.word m :: args) => (parseOperands (m.map Char.toUpper) args).map some
  | .ok _ => .error .badLine

/-- A text cut at its line ends. -/
def splitLines : List Char → List Char → List (List Char)
  | [], acc => [acc.reverse]
  | c :: cs, acc => if c = '\n' then acc.reverse :: splitLines cs [] else splitLines cs (c :: acc)

/-- The words of lines of text, one command a line (R81). -/
def assembleTextLines : List (List Char) → Except AsmError (List CmdWord)
  | [] => .ok []
  | t :: ts =>
    match parseLine t with
    | .error e => .error e
    | .ok none => assembleTextLines ts
    | .ok (some l) =>
      match assembleLine l, assembleTextLines ts with
      | .error e, _ => .error e
      | .ok _, .error e => .error e
      | .ok ws, .ok rest => .ok (ws ++ rest)

/-- The words of an assembly text (R81 to R83). -/
def assembleText (text : List Char) : Except AsmError (List CmdWord) :=
  assembleTextLines (splitLines text [])

end Sys2Proof.Machine
end

