-- ==== Sys2Proof/Safety.lean ====
section
/-! DEFINITION. The terms of the claims: the invariant of the states a reset leads to (spec/10_state.md R28),
what a trace shows at the ports, when a run ends and what it has shown (spec/40_pipeline.md R102; log
entry 14), the document's encode (spec/41_frame_control.md R121), and what two states must share when the
rest cannot be observed (R37, R24). -/

namespace Sys2Proof.Machine

/-! ### Runs and what they show -/

/-- `k` steps of the machine. -/
def run (k : Nat) (s : State) : Host.Outcome State Fault Refusal := Host.Core.run Sys2Proof.core k s

/-- The command accepted in a cycle: `cmd_valid` and `cmd_ready` both 1 at its edge (R32). -/
def TraceEntry.accepted : TraceEntry → Option CmdWord
  | .edge i o => if i.cmdValid && o.cmdReady then some i.cmd else none
  | .clockStopped => none

/-- The sample delivered in a cycle: `out_valid` and `out_ready` both 1 at its edge (R33). -/
def TraceEntry.delivered : TraceEntry → Option SampleWord
  | .edge i o => if o.outValid && i.outReady then some (o.outLevel ++ o.outPhase) else none
  | .clockStopped => none

/-- Neither a reset edge nor a stop of the clock. -/
def TraceEntry.quiet : TraceEntry → Bool
  | .edge i _ => !i.rst
  | .clockStopped => false

/-- The words accepted in a piece of trace, in order. -/
def acceptedWords (tr : List TraceEntry) : List CmdWord := tr.filterMap TraceEntry.accepted

/-- The samples delivered in a piece of trace, in order (R33, R53). -/
def deliveredSamples (tr : List TraceEntry) : List SampleWord := tr.filterMap TraceEntry.delivered

/-- A run has ended: no further command is offered, the queue is empty and so every sample has been taken
(R102). -/
def State.runEnded (s : State) : Prop := s.qcnt = 0#2 ∧ ∀ i, HostEvent.cycle i ∈ s.stimulus → i.cmdValid = false

/-- The state right after reset with a host that will do `stim`. -/
def State.resetWith (stim : List HostEvent) : State := { State.reset with stimulus := stim }

/-- A run ends at the first edge after which it has ended: `k` cycles after `s`, in the state `t` (R102). -/
structure RunEndsAt (s : State) (k : Nat) (t : State) : Prop where
  ran : run k s = .next t
  ended : t.runEnded
  first : ∀ j u, j < k → run j s = .next u → ¬u.runEnded

/-! ### The observation of a run (R102) -/

/-- The scheme whose frame a command opens, if it is a START (R120). -/
def opensFrame : Instr → Option Scheme
  | .bit _ => none
  | .startUnipolar => some .unipolar
  | .startNrzl => some .nrzl
  | .startNrzi => some .nrzi
  | .startRz => some .rz
  | .startManchester => some .manchester
  | .startDiffManchester => some .diffManchester
  | .startAmi => some .ami
  | .startB8zs => some .b8zs
  | .startHdb3 => some .hdb3

/-- The scheme whose frame a word opens: a START with a legal code (R120). -/
def wordOpens (w : CmdWord) : Option Scheme :=
  match decode w with
  | .command i => opensFrame i
  | .error _ => none

/-- The bit that a word carries, if it is a legal BIT (R119). -/
def wordBit (w : CmdWord) : Option Bit1 :=
  match decode w with
  | .command (.bit d) => some d
  | _ => none

/-- The cycles since the last reset edge or stop of the clock: the run in progress (R102). -/
def sinceReset : List TraceEntry → List TraceEntry
  | [] => []
  | e :: es => if es.all TraceEntry.quiet then (if e.quiet then e :: es else es) else sinceReset es

/-- A frame as it is seen at the ports: the scheme of its START and the samples it delivered.  Keeping the
scheme of every frame, where R102 lists only the final `SCHEME`, is the model's choice (log entry 15). -/
structure SeenFrame where
  scheme : Scheme
  samples : List SampleWord
deriving DecidableEq, Repr

/-- The delivered samples split by the accepted STARTs: those before the first START, and then the frames.
A sample delivered at the edge that accepts a START belongs to the frame before it (R120). -/
def splitFrames : List TraceEntry → List SampleWord × List SeenFrame
  | [] => ([], [])
  | e :: es =>
    match e.accepted.bind wordOpens with
    | some sc => (e.delivered.toList, ⟨sc, (splitFrames es).1⟩ :: (splitFrames es).2)
    | none => (e.delivered.toList ++ (splitFrames es).1, (splitFrames es).2)

/-- The observation of a run (R102): the delivered samples split into frames, and the final `ERR`, `ACTIVE`
and `SCHEME`; each frame with its scheme (log entry 15).  `POL`, `Q0` and `Q1` are no part of it. -/
structure Observation where
  /-- Samples delivered before the first accepted START; a run from reset has none. -/
  outside : List SampleWord
  frames : List SeenFrame
  err : ErrCode
  active : Bool
  scheme : SchemeCode
deriving DecidableEq, Repr

/-- What the run in progress has shown up to this state (R102). -/
def State.observation (s : State) : Observation where
  outside := (splitFrames (sinceReset s.trace)).1
  frames := (splitFrames (sinceReset s.trace)).2
  err := s.err
  active := s.active
  scheme := s.scheme

/-- The frames that a sequence of accepted words sends (R120): the bits before its first START, and then each
START's scheme with the BITs up to the next START or error. -/
def sentFrames : List CmdWord → List Bit1 × List (Scheme × List Bit1)
  | [] => ([], [])
  | w :: ws =>
    match wordOpens w, wordBit w with
    | some sc, _ => ([], (sc, (sentFrames ws).1) :: (sentFrames ws).2)
    | none, some d => (d :: (sentFrames ws).1, (sentFrames ws).2)
    | none, none => ([], (sentFrames ws).2)

/-! ### Schemes -/

/-- Samples per bit (R73). -/
def samplesPerBit : Scheme → Nat
  | .unipolar => 1
  | .nrzl => 1
  | .nrzi => 1
  | .rz => 2
  | .manchester => 2
  | .diffManchester => 2
  | .ami => 1
  | .b8zs => 1
  | .hdb3 => 1

/-- The schemes whose carried state is "none" (R24). -/
def stateless : Scheme → Bool
  | .unipolar => true
  | .nrzl => true
  | .nrzi => false
  | .rz => true
  | .manchester => true
  | .diffManchester => false
  | .ami => false
  | .b8zs => false
  | .hdb3 => false

/-- The samples of a bit sequence from a carried level on: each bit's samples appended in turn (R121). -/
def lineSamplesFrom (sc : Scheme) : Polarity → List Bit1 → List Sample
  | _, [] => []
  | p, d :: ds => sampleList (symbolMap sc d p).samples ++ lineSamplesFrom sc (symbolMap sc d p).carried ds

/-- The samples of a frame, from the seed of its scheme (R121). -/
def lineSamples (sc : Scheme) (bits : List Bit1) : List Sample := lineSamplesFrom sc (seed sc) bits

/-- The document's `encode(bits, scheme)`: the levels of a frame (R121). -/
def lineLevels (sc : Scheme) (bits : List Bit1) : List Level := (lineSamples sc bits).map Sample.level

/-- The level carried after a bit sequence (R121). -/
def carriedAfter (sc : Scheme) (p : Polarity) (bits : List Bit1) : Polarity :=
  bits.foldl (fun q d => (symbolMap sc d q).carried) p

/-- A run of `k` steps from `s` to `t` whose first cycle accepts `START sc` and in whose later cycles, none
a reset edge or a clock stop, the accepted words are the BITs of `bits`: one frame, up to `t` (R120,
R121).  How long the host waits between the commands is open. -/
structure FrameRun (sc : Scheme) (bits : List Bit1) (k : Nat) (s t : State)
    (opening : TraceEntry) (rest : List TraceEntry) : Prop where
  ran : run k s = .next t
  seen : t.trace = s.trace ++ opening :: rest
  opened : opening.accepted = some (encode (startInstr sc))
  quiet : ∀ e ∈ rest, e.quiet = true
  accepted : acceptedWords rest = bits.map fun d => encode (.bit d)

/-- A scheme emits a level for some bit and carried level (R9). -/
def EmitsLevel (sc : Scheme) (l : Level) : Prop :=
  ∃ d p, ∃ x ∈ sampleList (symbolMap sc d p).samples, x.level = l

/-- A scheme produces a sample word for a bit, under some carried level (R78). -/
def Produces (sc : Scheme) (d : Bit1) (w : SampleWord) : Prop :=
  ∃ p, ∃ x ∈ sampleList (symbolMap sc d p).samples, sampleWord x = w

/-! ### The invariant of R28 -/

/-- Both queue entries are the pair that one bit produced under the scheme of `SCHEME`. -/
def State.holdsPair (s : State) : Prop :=
  ∃ sc d p a b, s.scheme = sc.code ∧ (symbolMap sc d p).samples = .pair a b ∧
    s.q0 = sampleWord ⟨a, 0#1⟩ ∧ s.q1 = sampleWord ⟨b, 1#1⟩

/-- The head entry is the only sample of a bit under a single-sample `SCHEME`, or the second sample of a
bit under a dual-sample `SCHEME`. -/
def State.holdsLast (s : State) : Prop :=
  ∃ sc d p, s.scheme = sc.code ∧
    ((∃ a, (symbolMap sc d p).samples = .single a ∧ s.q0 = sampleWord ⟨a, 0#1⟩) ∨
      (∃ a b, (symbolMap sc d p).samples = .pair a b ∧ s.q0 = sampleWord ⟨b, 1#1⟩))

/-- The bullets of R28. -/
structure State.WellFormed (s : State) : Prop where
  queueCount : s.qcnt ≠ 3#2
  legalLevels : ∀ w ∈ s.queue, sampleLevel w ≠ 0b10#2
  twoEntries : s.qcnt = 2#2 → samplePhase s.q0 = 0#1 ∧ samplePhase s.q1 = 1#1 ∧ s.holdsPair
  oneEntry : s.qcnt = 1#2 → s.holdsLast
  activeScheme : s.active = true → s.scheme ≤ 8#4
  scheme : s.scheme ≤ 8#4

/-- The invariant: R28 once a reset edge has happened; before it nothing is promised (R201). -/
def State.Inv (s : State) : Prop := s.resetSeen = true → s.WellFormed

/-! ### Errors -/

/-- The error a word raises when it is accepted in a state, by the word's number (R172, R173, R175). -/
def ErrorCause (s : State) (w : CmdWord) : ErrorKind → Prop
  | .unknownScheme => 0x19 ≤ w.toNat
  | .illegalCommand => 0x02 ≤ w.toNat ∧ w.toNat ≤ 0x0F
  | .bitOutsideFrame => w.toNat ≤ 0x01 ∧ s.active = false

/-- The samples an accepted word puts in the queue (R38): those of `MAP` for a BIT of an open frame, none
for any other word. -/
def producedSamples (s : State) (w : CmdWord) : List SampleWord :=
  match decode w with
  | .command (.bit d) =>
    match s.active, schemeOfCode s.scheme with
    | true, some sc => (sampleList (symbolMap sc d (polVal s.pol)).samples).map sampleWord
    | _, _ => []
  | _ => []

/-! ### What cannot be observed -/

/-- Two states that agree on all but stale queue entries (R37). -/
structure SameLive (s t : State) : Prop where
  scheme : s.scheme = t.scheme
  pol : s.pol = t.pol
  active : s.active = t.active
  qcnt : s.qcnt = t.qcnt
  queue : s.queue = t.queue
  err : s.err = t.err
  resetSeen : s.resetSeen = t.resetSeen
  draws : s.draws = t.draws
  stimulus : s.stimulus = t.stimulus
  trace : s.trace = t.trace

/-- No BIT of the open frame, if there is one, reads `POL` (R24): no frame is open, or its scheme is
stateless, or its code has no scheme. -/
def State.polUnread (s : State) : Prop :=
  s.active = false ∨ ∀ sc, schemeOfCode s.scheme = some sc → stateless sc = true

/-- Two states that differ in `POL` at most, and only while no BIT reads it (R24). -/
def SameButUnreadPol (s t : State) : Prop :=
  t = { s with pol := t.pol } ∧ (s.pol = t.pol ∨ s.polUnread)

/-! ### Hosts that lose no cycle -/

/-- A cycle in which a sample is taken and no command is offered. -/
def takeOnly : HostEvent := .cycle ⟨false, false, 0#5, true⟩

/-- A host that offers one word of a frame in each cycle and is always ready, and then one cycle more
(R208). -/
def backToBack (ws : List CmdWord) : List HostEvent := ws.map offerWord ++ [takeOnly]

/-- A host that offers START, then each bit's word in every second cycle and a word of its own in the cycle
after it, is always ready, and then has one cycle more (R208).  What it offers in the cycle after a bit may
differ from bit to bit, and may be nothing. -/
def everySecondCycle (start : CmdWord) (slots : List (CmdWord × HostEvent)) : List HostEvent :=
  offerWord start :: slots.flatMap (fun x => [offerWord x.1, x.2]) ++ [takeOnly]

end Sys2Proof.Machine
end

