-- ==== Sys2Proof/Certificates/Slice0/Obligations.lean ====
section
/-! DEFINITION. The statements for the provers, from the numbered rules of spec/. -/

open Sys2Proof Sys2Proof.Machine

/-! ### Encoding -/

/-- R75 to R77: the outcome of every one of the 32 words, by its number. -/
def Obligations.DecodeFollowsCommandMap : Prop :=
  ∀ w : CmdWord,
    (w = 0x00#5 → decode w = .command (.bit 0#1)) ∧
    (w = 0x01#5 → decode w = .command (.bit 1#1)) ∧
    (0x02 ≤ w.toNat ∧ w.toNat ≤ 0x0F → decode w = .error .illegalCommand) ∧
    (w = 0x10#5 → decode w = .command .startUnipolar) ∧
    (w = 0x11#5 → decode w = .command .startNrzl) ∧
    (w = 0x12#5 → decode w = .command .startNrzi) ∧
    (w = 0x13#5 → decode w = .command .startRz) ∧
    (w = 0x14#5 → decode w = .command .startManchester) ∧
    (w = 0x15#5 → decode w = .command .startDiffManchester) ∧
    (w = 0x16#5 → decode w = .command .startAmi) ∧
    (w = 0x17#5 → decode w = .command .startB8zs) ∧
    (w = 0x18#5 → decode w = .command .startHdb3) ∧
    (0x19 ≤ w.toNat → decode w = .error .unknownScheme)

/-- R70 to R73, R75: a word decodes to a command exactly when it is that command's encoding. -/
def Obligations.DecodeAndEncodeAgree : Prop :=
  ∀ (w : CmdWord) (i : Instr), decode w = .command i ↔ w = encode i

/-- R71, R72: words written out bit by bit, OP first, decode to the commands they stand for. -/
def Obligations.WrittenWordsDecode : Prop :=
  decode (0#1 ++ (0b000#3 ++ 1#1)) = .command (.bit 1#1) ∧
  decode (0#1 ++ (0b000#3 ++ 0#1)) = .command (.bit 0#1) ∧
  decode (1#1 ++ 0b0000#4) = .command .startUnipolar ∧
  decode (1#1 ++ 0b0101#4) = .command .startDiffManchester ∧
  decode (1#1 ++ 0b1000#4) = .command .startHdb3 ∧
  decode (1#1 ++ 0b1001#4) = .error .unknownScheme ∧
  decode (0#1 ++ (0b100#3 ++ 1#1)) = .error .illegalCommand

/-- R9: `enc`, its inverse `dec` on the three codes, the code `2'b10` never produced, the integer that the
code sign-extends to (R10), and the level set of each group of schemes, RZ's with all three levels. -/
def Obligations.LevelEncoding : Prop :=
  enc .pos = 0b01#2 ∧ enc .zero = 0b00#2 ∧ enc .neg = 0b11#2 ∧
  (∀ l : Level, dec (enc l) = some l ∧ enc l ≠ 0b10#2 ∧ (enc l).toInt = levelInt l) ∧
  dec 0b10#2 = none ∧
  (∀ sc l, EmitsLevel sc l ↔
    (sc = .unipolar ∧ (l = .zero ∨ l = .pos)) ∨
    (sc ∈ [Scheme.nrzl, .nrzi, .manchester, .diffManchester] ∧ (l = .neg ∨ l = .pos)) ∨
    sc ∈ [Scheme.rz, .ami, .b8zs, .hdb3])

/-- R78: the six sample words that occur, and exactly which schemes produce each on which bits; the words
`3'b100` and `3'b101` never occur. -/
def Obligations.SampleWordsThatOccur : Prop :=
  (∀ sc d, Produces sc d 0b010#3 ↔
    (sc ∈ [Scheme.unipolar, .nrzl, .rz, .manchester, .ami, .b8zs, .hdb3] ∧ d = 1#1) ∨
      sc ∈ [Scheme.nrzi, .diffManchester]) ∧
  (∀ sc d, Produces sc d 0b000#3 ↔ sc ∈ [Scheme.unipolar, .ami, .b8zs, .hdb3] ∧ d = 0#1) ∧
  (∀ sc d, Produces sc d 0b110#3 ↔
    (sc ∈ [Scheme.nrzl, .rz, .manchester] ∧ d = 0#1) ∨ (sc ∈ [Scheme.ami, .b8zs, .hdb3] ∧ d = 1#1) ∨
      sc ∈ [Scheme.nrzi, .diffManchester]) ∧
  (∀ sc d, Produces sc d 0b001#3 ↔ sc = .rz) ∧
  (∀ sc d, Produces sc d 0b011#3 ↔ (sc = .manchester ∧ d = 0#1) ∨ sc = .diffManchester) ∧
  (∀ sc d, Produces sc d 0b111#3 ↔ (sc = .manchester ∧ d = 1#1) ∨ sc = .diffManchester) ∧
  (∀ sc d, ¬Produces sc d 0b100#3 ∧ ¬Produces sc d 0b101#3)

/-- R80: the nine codes, the carried level that `POL` stands for, the list of samples with their phases, and
the symbol map entry by entry over every carried level. -/
def Obligations.SymbolMapTable : Prop :=
  [Scheme.unipolar, .nrzl, .nrzi, .rz, .manchester, .diffManchester, .ami, .b8zs, .hdb3].map Scheme.code =
    [0#4, 1#4, 2#4, 3#4, 4#4, 5#4, 6#4, 7#4, 8#4] ∧
  (∀ (sc : Scheme) (c : SchemeCode), schemeOfCode c = some sc ↔ c = sc.code) ∧
  polVal 0#1 = .plus ∧ polVal 1#1 = .minus ∧
  (∀ a b : Level, sampleList (.single a) = [⟨a, 0#1⟩] ∧ sampleList (.pair a b) = [⟨a, 0#1⟩, ⟨b, 1#1⟩]) ∧
  ∀ p : Polarity,
    symbolMap .unipolar 0#1 p = ⟨.single .zero, p⟩ ∧
    symbolMap .unipolar 1#1 p = ⟨.single .pos, p⟩ ∧
    symbolMap .nrzl 0#1 p = ⟨.single .neg, p⟩ ∧
    symbolMap .nrzl 1#1 p = ⟨.single .pos, p⟩ ∧
    symbolMap .nrzi 0#1 p = ⟨.single (polLevel p), p⟩ ∧
    symbolMap .nrzi 1#1 p = ⟨.single (polLevel (negPol p)), negPol p⟩ ∧
    symbolMap .rz 0#1 p = ⟨.pair .neg .zero, p⟩ ∧
    symbolMap .rz 1#1 p = ⟨.pair .pos .zero, p⟩ ∧
    symbolMap .manchester 0#1 p = ⟨.pair .neg .pos, p⟩ ∧
    symbolMap .manchester 1#1 p = ⟨.pair .pos .neg, p⟩ ∧
    symbolMap .diffManchester 0#1 p = ⟨.pair (polLevel (negPol p)) (polLevel p), negPol p⟩ ∧
    symbolMap .diffManchester 1#1 p = ⟨.pair (polLevel p) (polLevel (negPol p)), p⟩ ∧
    symbolMap .ami 0#1 p = ⟨.single .zero, p⟩ ∧
    symbolMap .ami 1#1 p = ⟨.single (polLevel (negPol p)), negPol p⟩ ∧
    symbolMap .b8zs 0#1 p = ⟨.single .zero, p⟩ ∧
    symbolMap .b8zs 1#1 p = ⟨.single (polLevel (negPol p)), negPol p⟩ ∧
    symbolMap .hdb3 0#1 p = ⟨.single .zero, p⟩ ∧
    symbolMap .hdb3 1#1 p = ⟨.single (polLevel (negPol p)), negPol p⟩

/-! ### The ten commands: result, frame and completion in one equation -/

/-- What R110 to R118 say of one START, in their order: the word, the three registers written and nothing
else (no `ERR`, no sample), and the rule and number of samples of every BIT of the frame. -/
def StartRule (i : Instr) (word : CmdWord) (code : SchemeCode) (seedBit : Bit1) (sc : Scheme)
    (samples : Nat) : Prop :=
  encode i = word ∧ decode word = .command i ∧
  (∀ s : State, exec i s = .next { s with scheme := code, pol := seedBit, active := true }) ∧
  ∀ (u : State) (d : Bit1), u.active = true → u.scheme = code →
    ∃ t : State, exec (.bit d) u = .next t ∧
      t.queue = (sampleList (symbolMap sc d (polVal u.pol)).samples).map sampleWord ∧
      t.queue.length = samples

/-- R110, R111, R113, R114: the four stateless schemes' STARTs. -/
def Obligations.StartOfStatelessSchemes : Prop :=
  StartRule .startUnipolar 0x10#5 0#4 0#1 .unipolar 1 ∧
  StartRule .startNrzl 0x11#5 1#4 0#1 .nrzl 1 ∧
  StartRule .startRz 0x13#5 3#4 0#1 .rz 2 ∧
  StartRule .startManchester 0x14#5 4#4 0#1 .manchester 2

/-- R112, R115: the STARTs whose seed +1 is the document's. -/
def Obligations.StartOfPlusSeededSchemes : Prop :=
  StartRule .startNrzi 0x12#5 2#4 0#1 .nrzi 1 ∧
  StartRule .startDiffManchester 0x15#5 5#4 0#1 .diffManchester 2

/-- R116 to R118: the STARTs whose seed is −1. -/
def Obligations.StartOfMinusSeededSchemes : Prop :=
  StartRule .startAmi 0x16#5 6#4 1#1 .ami 1 ∧
  StartRule .startB8zs 0x17#5 7#4 1#1 .b8zs 1 ∧
  StartRule .startHdb3 0x18#5 8#4 1#1 .hdb3 1

/-- R119: a BIT outside a frame raises BitOutsideFrame (R175: `ACTIVE` cleared, code 3 if first); inside a
frame of a scheme it loads that scheme's samples and writes the next carried level, and nothing else.  The other words
of its format are no BIT. -/
def Obligations.BitFollowsTheSymbolMap : Prop :=
  encode (.bit 0#1) = 0x00#5 ∧ encode (.bit 1#1) = 0x01#5 ∧
  (∀ w : CmdWord, 0x02 ≤ w.toNat → w.toNat ≤ 0x0F → decode w = .error .illegalCommand) ∧
  ∀ (d : Bit1) (s : State),
    (s.active = false →
      exec (.bit d) s = .next { s with active := false, err := if s.err = 0#2 then 3#2 else s.err }) ∧
    (∀ (sc : Scheme) (a : Level) (p' : Polarity), s.active = true → s.scheme = sc.code →
      symbolMap sc d (polVal s.pol) = ⟨.single a, p'⟩ →
      exec (.bit d) s = .next { s with qcnt := 1#2, q0 := enc a ++ 0#1, pol := polBit p' }) ∧
    (∀ (sc : Scheme) (a b : Level) (p' : Polarity), s.active = true → s.scheme = sc.code →
      symbolMap sc d (polVal s.pol) = ⟨.pair a b, p'⟩ →
      exec (.bit d) s =
        .next { s with qcnt := 2#2, q0 := enc a ++ 0#1, q1 := enc b ++ 1#1, pol := polBit p' })

/-- The model's choice for a `SCHEME` of 9 to 15, which no reset leads to (93_implementation_defined.md
U6; log entry 5): a BIT of an open frame stops by name. -/
def Obligations.BitUnderUnassignedCodeRefused : Prop :=
  ∀ (d : Bit1) (s : State), s.active = true → 8#4 < s.scheme →
    exec (.bit d) s = .refused .schemeCodeUnassigned

/-- R130: Unipolar. -/
def Obligations.BitUnderUnipolar : Prop :=
  (∀ (d : Bit1) (s : State), s.active = true → s.scheme = 0#4 →
    exec (.bit d) s = .next { s with qcnt := 1#2, q0 := if d = 1#1 then 0b010#3 else 0b000#3 }) ∧
  lineLevels .unipolar [1#1, 0#1, 1#1, 1#1] = [.pos, .zero, .pos, .pos]

/-- R131: NRZ-L. -/
def Obligations.BitUnderNrzl : Prop :=
  (∀ (d : Bit1) (s : State), s.active = true → s.scheme = 1#4 →
    exec (.bit d) s = .next { s with qcnt := 1#2, q0 := if d = 1#1 then 0b010#3 else 0b110#3 }) ∧
  lineLevels .nrzl [1#1, 0#1, 1#1, 1#1] = [.pos, .neg, .pos, .pos]

/-- R132: NRZ-I; the level after the update is the one emitted. -/
def Obligations.BitUnderNrzi : Prop :=
  (∀ (d : Bit1) (s : State), s.active = true → s.scheme = 2#4 →
    exec (.bit d) s = .next { s with
      pol := if d = 1#1 then ~~~s.pol else s.pol
      qcnt := 1#2
      q0 := if (if d = 1#1 then ~~~s.pol else s.pol) = 0#1 then 0b010#3 else 0b110#3 }) ∧
  lineLevels .nrzi [0#1] = [.pos] ∧ lineLevels .nrzi [1#1] = [.neg] ∧
  lineLevels .nrzi [1#1, 0#1, 1#1, 1#1] = [.neg, .neg, .pos, .neg]

/-- R133 to R135: AMI, and B8ZS and HDB3 exactly as AMI. -/
def Obligations.BitUnderAmiFamily : Prop :=
  (∀ (d : Bit1) (s : State), s.active = true → s.scheme = 6#4 ∨ s.scheme = 7#4 ∨ s.scheme = 8#4 →
    (d = 0#1 → exec (.bit d) s = .next { s with qcnt := 1#2, q0 := 0b000#3 }) ∧
    (d = 1#1 → exec (.bit d) s = .next { s with
      pol := ~~~s.pol
      qcnt := 1#2
      q0 := if s.pol = 1#1 then 0b010#3 else 0b110#3 })) ∧
  lineLevels .ami [1#1, 0#1, 1#1, 1#1] = [.pos, .zero, .neg, .pos] ∧
  lineLevels .b8zs ([1#1] ++ List.replicate 8 0#1 ++ [1#1]) =
    [.pos] ++ List.replicate 8 .zero ++ [.neg] ∧
  lineLevels .hdb3 [1#1, 1#1, 0#1, 0#1, 0#1, 0#1] = [.pos, .neg, .zero, .zero, .zero, .zero]

/-- R152: RZ. -/
def Obligations.BitUnderRz : Prop :=
  (∀ (d : Bit1) (s : State), s.active = true → s.scheme = 3#4 →
    exec (.bit d) s = .next { s with
      qcnt := 2#2, q0 := if d = 1#1 then 0b010#3 else 0b110#3, q1 := 0b001#3 }) ∧
  lineLevels .rz [1#1, 0#1] = [.pos, .zero, .neg, .zero]

/-- R153: Manchester. -/
def Obligations.BitUnderManchester : Prop :=
  (∀ (d : Bit1) (s : State), s.active = true → s.scheme = 4#4 →
    exec (.bit d) s = .next { s with
      qcnt := 2#2
      q0 := if d = 1#1 then 0b010#3 else 0b110#3
      q1 := if d = 1#1 then 0b111#3 else 0b011#3 }) ∧
  lineLevels .manchester [1#1, 0#1] = [.pos, .neg, .neg, .pos]

/-- R154: Differential Manchester; the carried level is the first half. -/
def Obligations.BitUnderDiffManchester : Prop :=
  (∀ (d : Bit1) (s : State), s.active = true → s.scheme = 5#4 →
    exec (.bit d) s = .next { s with
      pol := if d = 0#1 then ~~~s.pol else s.pol
      qcnt := 2#2
      q0 := if (if d = 0#1 then ~~~s.pol else s.pol) = 0#1 then 0b010#3 else 0b110#3
      q1 := if (if d = 0#1 then ~~~s.pol else s.pol) = 0#1 then 0b111#3 else 0b011#3 }) ∧
  lineLevels .diffManchester [0#1, 0#1] = [.neg, .pos, .pos, .neg] ∧
  lineLevels .diffManchester [0#1, 1#1, 1#1, 0#1] =
    [.neg, .pos, .neg, .pos, .neg, .pos, .pos, .neg]

/-- R155: between two bits of a Differential Manchester frame, `POL` is the level the first emitted first;
a 1 repeats the previous pair, a 0 emits it with its levels reversed.  The state between the two bits is any
state that kept the frame's three registers. -/
def Obligations.DiffManchesterCarriesTheFirstHalf : Prop :=
  ∀ (d : Bit1) (s t u : State), s.active = true → s.scheme = 5#4 → exec (.bit d) s = .next t →
    u.active = t.active → u.scheme = t.scheme → u.pol = t.pol →
    sampleLevel t.q0 = enc (polLevel (polVal t.pol)) ∧
    (∃ v, exec (.bit 1#1) u = .next v ∧ v.q0 = t.q0 ∧ v.q1 = t.q1) ∧
    (∃ v, exec (.bit 0#1) u = .next v ∧
      sampleLevel v.q0 = sampleLevel t.q1 ∧ sampleLevel v.q1 = sampleLevel t.q0)

/-- R136, R151: how many samples each rule writes, their phases, and the queue count after the edge; no
rule raises an error; the rules of the stateless schemes neither read nor change `POL`. -/
def Obligations.SamplesPerBitAndPhases : Prop :=
  (∀ (sc : Scheme) (d : Bit1) (s : State), s.active = true → s.scheme = sc.code →
    ∃ t, exec (.bit d) s = .next t ∧ t.active = s.active ∧ t.err = s.err ∧
      t.qcnt.toNat = samplesPerBit sc ∧ t.queue.length = samplesPerBit sc ∧
      t.queue.map samplePhase = (if samplesPerBit sc = 1 then [0#1] else [0#1, 1#1]) ∧
      (stateless sc = true → t.pol = s.pol)) ∧
  (∀ (sc : Scheme) (d : Bit1) (p q : Polarity), stateless sc = true →
    (symbolMap sc d p).samples = (symbolMap sc d q).samples)

/-! ### The ports -/

/-- R91: the output port, its independence of `out_ready`, and that an offered sample stays offered until it
is delivered or withdrawn by a reset. -/
def Obligations.OutputPort : Prop :=
  (∀ (s : State) (i : Inputs),
    (outputs s i).outValid = (!i.rst && decide (s.qcnt ≠ 0#2)) ∧
    ((outputs s i).outValid = true →
      (outputs s i).outLevel = s.q0.extractLsb' 1 2 ∧ (outputs s i).outPhase = s.q0.extractLsb' 0 1) ∧
    ((outputs s i).outValid = false → (outputs s i).outLevel = 0b00#2 ∧ (outputs s i).outPhase = 0#1) ∧
    ∀ r, (outputs s { i with outReady := r }).outValid = (outputs s i).outValid) ∧
  (∀ (s t : State) (i j : Inputs), nextEvent s = .cycle i → step s = .next t →
    (outputs s i).outValid = true → i.outReady = false → j.rst = false →
    t.q0 = s.q0 ∧ (outputs t j).outValid = true) ∧
  (∀ (s t : State) (i j : Inputs), nextEvent s = .cycle i → step s = .next t → i.rst = true →
    (outputs t j).outValid = false)

/-- R92: the command port, and its independence of `cmd_valid` and `cmd`. -/
def Obligations.CommandPort : Prop :=
  ∀ (s : State) (i : Inputs),
    ((outputs s i).cmdReady = true ↔
      i.rst = false ∧ (s.qcnt = 0#2 ∨ s.qcnt = 1#2 ∧ i.outReady = true)) ∧
    ∀ v w, (outputs s { i with cmdValid := v, cmd := w }).cmdReady = (outputs s i).cmdReady

/-- R34, R93: the status outputs are copies of the registers in every cycle, reset cycles too. -/
def Obligations.StatusOutputs : Prop :=
  ∀ (s : State) (i : Inputs),
    (outputs s i).statusActive = s.active ∧ (outputs s i).statusScheme = s.scheme ∧
    (outputs s i).statusErr = s.err ∧ ((outputs s i).statusBusy = true ↔ s.qcnt ≠ 0#2)

/-! ### The rising edge -/

/-- R96, R98: a step in whose cycle a word is accepted runs the decoded command on the state after this
edge's delivery, or the error action for an error word.  The cycle leaves the stimulus and joins the trace
with what was driven in it. -/
def Obligations.StepRunsTheAcceptedCommand : Prop :=
  ∀ (s : State) (i : Inputs) (rest : List HostEvent), s.stimulus = .cycle i :: rest →
    s.resetSeen = true → i.rst = false → i.cmdValid = true → (outputs s i).cmdReady = true →
    (∀ c : Instr, decode i.cmd = .command c →
      step s = exec c (State.afterDelivery i
        { s with stimulus := rest, trace := s.trace ++ [.edge i (outputs s i)] })) ∧
    (∀ e : ErrorKind, decode i.cmd = .error e →
      step s = .next (State.raiseError e (State.afterDelivery i
        { s with stimulus := rest, trace := s.trace ++ [.edge i (outputs s i)] })))

/-- The model's interface (log entry 4): with a command's word placed, the very next step runs it, on the
queue emptied by this cycle's delivery. -/
def Obligations.StepRunsThePlacedWord : Prop :=
  ∀ (s : State) (w : CmdWord) (c : Instr), decode w = .command c →
    ∃ u : State, step (s.withFetchWord 8 w.toNat) = exec c u ∧ decodeTableWord 8 w.toNat = some c ∧
      u.scheme = s.scheme ∧ u.pol = s.pol ∧ u.active = s.active ∧ u.err = s.err ∧ u.qcnt = 0#2 ∧
      u.q0 = s.q0 ∧ u.q1 = s.q1 ∧ u.stimulus = s.stimulus

/-- R35, R94: a reset edge, whatever the other inputs and the registers, and no handshake at it. -/
def Obligations.ResetEdge : Prop :=
  ∀ (s : State) (i : Inputs) (rest : List HostEvent), s.stimulus = .cycle i :: rest → i.rst = true →
    ∃ e : TraceEntry, e.accepted = none ∧ e.delivered = none ∧
      step s = .next
        { scheme := 0#4, pol := 0#1, active := false, qcnt := 0#2, q0 := 0#3, q1 := 0#3, err := 0#2,
          resetSeen := true, draws := s.draws, stimulus := rest, trace := s.trace ++ [e] }

/-- R202: the state after reset waits for a command; a BIT raises BitOutsideFrame and leaves no sample. -/
def Obligations.StateAfterReset : Prop :=
  State.reset.active = false ∧ State.reset.queue = [] ∧ State.reset.err = 0#2 ∧
  State.reset.scheme = 0#4 ∧ State.reset.pol = 0#1 ∧
  (∀ i : Inputs, i.rst = false → (outputs State.reset i).cmdReady = true) ∧
  (∀ (d : Bit1) (i : Inputs) (rest : List HostEvent), i.rst = false → i.cmdValid = true →
    i.cmd = encode (.bit d) →
    ∃ t, step (State.resetWith (.cycle i :: rest)) = .next t ∧ t.err = 3#2 ∧ t.active = false ∧
      t.queue = [])

/-- R95: the delivery of the head sample.  Where a word is accepted at the same edge, its writes are computed
on the state after the pop. -/
def Obligations.DeliveryPopsTheQueue : Prop :=
  ∀ (s : State) (i : Inputs) (rest : List HostEvent), s.stimulus = .cycle i :: rest →
    s.resetSeen = true → i.rst = false → (outputs s i).outValid = true → i.outReady = true →
    ∃ u : State,
      (s.qcnt = 2#2 → u = { s with
        q0 := s.q1, qcnt := 1#2, stimulus := rest, trace := s.trace ++ [.edge i (outputs s i)] }) ∧
      (s.qcnt ≠ 2#2 → u = { s with
        qcnt := 0#2, stimulus := rest, trace := s.trace ++ [.edge i (outputs s i)] }) ∧
      (¬(i.cmdValid = true ∧ (outputs s i).cmdReady = true) → step s = .next u) ∧
      (i.cmdValid = true ∧ (outputs s i).cmdReady = true →
        (∀ c, decode i.cmd = .command c → step s = exec c u) ∧
        (∀ e, decode i.cmd = .error e → step s = .next (u.raiseError e)))

/-- R188, R204: without a reset edge, an accepted command or a delivered sample, no register changes,
whatever is offered. -/
def Obligations.NothingHappensWithoutAHandshake : Prop :=
  ∀ (s : State) (i : Inputs) (rest : List HostEvent), s.stimulus = .cycle i :: rest →
    s.resetSeen = true → i.rst = false →
    ¬(i.cmdValid = true ∧ (outputs s i).cmdReady = true) →
    ¬((outputs s i).outValid = true ∧ i.outReady = true) →
    step s = .next { s with stimulus := rest, trace := s.trace ++ [.edge i (outputs s i)] }

/-- R204: a word offered while `cmd_ready` is 0 is not taken and has no effect: the step changes the
registers as it would with no word offered.  After an accepted BIT of a dual-sample scheme `cmd_ready` is 0
in the next cycle. -/
def Obligations.WordNotAcceptedHasNoEffect : Prop :=
  (∀ (s : State) (i : Inputs) (rest : List HostEvent), s.resetSeen = true → i.rst = false →
    (outputs s i).cmdReady = false →
    ∃ t : State, ∀ (v : Bool) (w : CmdWord), ∃ e : TraceEntry, e.accepted = none ∧
      step { s with stimulus := .cycle { i with cmdValid := v, cmd := w } :: rest } =
        .next { t with stimulus := rest, trace := s.trace ++ [e] }) ∧
  (∀ (s t : State) (sc : Scheme) (d : Bit1) (j : Inputs), s.active = true → s.scheme = sc.code →
    samplesPerBit sc = 2 → exec (.bit d) s = .next t → (outputs t j).cmdReady = false)

/-- R97: at an accepting edge the queue is empty after the delivery. -/
def Obligations.EveryCommandMeetsAnEmptyQueue : Prop :=
  ∀ (s : State) (i : Inputs), i.cmdValid = true → (outputs s i).cmdReady = true →
    (s.qcnt = 0#2 ∨ s.qcnt = 1#2 ∧ (outputs s i).outValid = true ∧ i.outReady = true) ∧
    (s.afterDelivery i).qcnt = 0#2 ∧ (s.afterDelivery i).queue = [] ∧
    (∀ (d : Bit1) (t : State), s.active = true → exec (.bit d) (s.afterDelivery i) = .next t →
      ∃ sc, schemeOfCode s.scheme = some sc ∧
        t.queue = (sampleList (symbolMap sc d (polVal s.pol)).samples).map sampleWord)

/-- R53, R57, R97: no sample is lost, repeated or reordered.  At an edge that is no reset edge, what is
delivered and then what waits is what waited before and then what the accepted word produced. -/
def Obligations.SamplesAreConservedInOrder : Prop :=
  ∀ (s t : State) (i : Inputs), s.Inv → s.resetSeen = true → nextEvent s = .cycle i →
    i.rst = false → step s = .next t →
    (TraceEntry.edge i (outputs s i)).delivered.toList ++ t.queue =
      s.queue ++ ((TraceEntry.edge i (outputs s i)).accepted.toList.flatMap (producedSamples s))

/-- Before the first reset edge a run that offers a command or takes a sample is refused, as R201 tells a
model to do.  The rest is the model's choice (log entry 10; R201 makes no claim about such cycles): a cycle
that does neither changes no register, and the same two clauses hold after a clock stop until the next reset
edge. -/
def Obligations.HandshakeBeforeResetRefused : Prop :=
  ∀ (s : State) (i : Inputs), s.resetSeen = false → nextEvent s = .cycle i → i.rst = false →
    (i.cmdValid = true ∨ i.outReady = true ∧ (outputs s i).outValid = true →
      step s = .refused .handshakeBeforeReset) ∧
    (i.cmdValid = false → ¬(i.outReady = true ∧ (outputs s i).outValid = true) →
      step s = .next { s with
        stimulus := s.stimulus.tail, trace := s.trace ++ [.edge i (outputs s i)] })

/-- R188, R201 (the free values are the model's, log entry 3): after a stop of the clock, as at power-up,
every register is a free value, and no reset edge counts as seen (log entry 10). -/
def Obligations.ClockStopLosesTheRegisters : Prop :=
  ∀ (s : State) (rest : List HostEvent), s.stimulus = .clockStop :: rest →
    step s = .next
      { scheme := Config.freeScheme s.draws, pol := Config.freePol s.draws,
        active := Config.freeActive s.draws, qcnt := Config.freeQcnt s.draws,
        q0 := Config.freeQ0 s.draws, q1 := Config.freeQ1 s.draws, err := Config.freeErr s.draws,
        resetSeen := false, draws := s.draws + 1, stimulus := rest,
        trace := s.trace ++ [.clockStopped] }

/-! ### Errors -/

/-- R170 to R173, R175: an accepted word with the cause of an error takes the error action and nothing else:
`ACTIVE` is cleared, the first code is kept, no sample is produced, the block goes on and shows the error in
the next cycle.  After it a BIT has no frame, and a START reopens encoding and leaves `ERR` as it is. -/
def Obligations.AcceptedErrorTakesTheErrorAction : Prop :=
  ∀ (s : State) (i : Inputs) (rest : List HostEvent) (e : ErrorKind), s.stimulus = .cycle i :: rest →
    s.resetSeen = true → i.cmdValid = true → (outputs s i).cmdReady = true → ErrorCause s i.cmd e →
    ∃ t : State, step s = .next t ∧ t.active = false ∧
      t.err = (if s.err = 0#2 then
        (match e with
          | .unknownScheme => 1#2
          | .illegalCommand => 2#2
          | .bitOutsideFrame => 3#2) else s.err) ∧
      t.scheme = s.scheme ∧ t.pol = s.pol ∧ t.q0 = s.q0 ∧ t.q1 = s.q1 ∧ t.qcnt = 0#2 ∧
      t.resetSeen = true ∧ t.draws = s.draws ∧ t.stimulus = rest ∧
      (∀ j : Inputs, (outputs t j).statusActive = false ∧ (outputs t j).statusErr = t.err ∧
        (outputs t j).cmdReady = !j.rst) ∧
      (∀ d : Bit1, exec (.bit d) t = .next t) ∧
      (∀ sc : Scheme, ∃ u, exec (startInstr sc) t = .next u ∧ u.active = true ∧ u.err = t.err)

/-- R178: a word raises at most one error; a legal BIT word in an open frame and a START word with a legal
code raise none. -/
def Obligations.AtMostOneErrorPerCommand : Prop :=
  ∀ (s : State) (w : CmdWord),
    (∀ e e', ErrorCause s w e → ErrorCause s w e' → e = e') ∧
    ((∃ i, decode w = .command i ∧ ((∃ d, i = .bit d) → s.active = true)) ↔ ∀ e, ¬ErrorCause s w e) ∧
    (∀ e, decode w = .error e → ErrorCause s w e)

/-- R27, R181: `ERR` is written only by the error action and only while it is 0; only a reset edge clears it
(a stop of the clock makes it unspecified). -/
def Obligations.ErrKeepsTheFirstError : Prop :=
  ∀ (s t : State) (i : Inputs), nextEvent s = .cycle i → step s = .next t → i.rst = false →
    (s.err ≠ 0#2 → t.err = s.err) ∧
    (t.err ≠ s.err → i.cmdValid = true ∧ (outputs s i).cmdReady = true ∧
      ∃ e, ErrorCause s i.cmd e ∧ t.err = errorCode e) ∧
    ∀ j : Inputs, (outputs t j).statusErr = t.err

/-! ### Who writes which register -/

/-- R23: only an accepted START with a legal code writes `SCHEME`, and reset. -/
def Obligations.OnlyStartWritesScheme : Prop :=
  ∀ (s t : State) (i : Inputs), nextEvent s = .cycle i → step s = .next t → i.rst = false →
    t.scheme ≠ s.scheme →
    i.cmdValid = true ∧ (outputs s i).cmdReady = true ∧
      ∃ sc : Scheme, i.cmd = encode (startInstr sc) ∧ t.scheme = sc.code

/-- R25, R36: `ACTIVE` is set by an accepted START only and cleared by an error (or reset) only. -/
def Obligations.ActiveIsSetByStartAndClearedByErrors : Prop :=
  ∀ (s t : State) (i : Inputs), nextEvent s = .cycle i → step s = .next t → i.rst = false →
    (s.active = false → t.active = true →
      i.cmdValid = true ∧ (outputs s i).cmdReady = true ∧
        ∃ sc : Scheme, i.cmd = encode (startInstr sc)) ∧
    (s.active = true → t.active = false →
      i.cmdValid = true ∧ (outputs s i).cmdReady = true ∧ ∃ e, ErrorCause s i.cmd e)

/-- R24: `POL` takes the seed at a START, and between STARTs changes only by an inversion: under NRZ-I and
the AMI family on a 1, under Differential Manchester on a 0. -/
def Obligations.PolIsSeededOrInverted : Prop :=
  ∀ (s t : State) (i : Inputs), nextEvent s = .cycle i → step s = .next t → i.rst = false →
    t.pol ≠ s.pol →
    i.cmdValid = true ∧ (outputs s i).cmdReady = true ∧
      ((∃ sc : Scheme, i.cmd = encode (startInstr sc) ∧ t.pol = polBit (seed sc)) ∨
        (s.active = true ∧ t.pol = ~~~s.pol ∧
          ((i.cmd = 0x01#5 ∧ s.scheme ∈ [2#4, 6#4, 7#4, 8#4]) ∨ (i.cmd = 0x00#5 ∧ s.scheme = 5#4))))

/-- R26, R38: only an accepted BIT of an open frame fills the queue; every other accepted word leaves it
empty. -/
def Obligations.OnlyBitFillsTheQueue : Prop :=
  ∀ (s t : State) (i : Inputs), nextEvent s = .cycle i → step s = .next t → i.rst = false →
    i.cmdValid = true → (outputs s i).cmdReady = true →
    (t.qcnt ≠ 0#2 → s.active = true ∧ ∃ d, i.cmd = encode (.bit d)) ∧
    (t.qcnt = 0#2 → t.queue = [] ∧ ¬(s.active = true ∧ ∃ d, i.cmd = encode (.bit d)))

/-! ### Invariants -/

/-- R28 holds right after reset, whatever the host will do. -/
def Obligations.ResetStateIsWellFormed : Prop :=
  ∀ stim : List HostEvent, (State.resetWith stim).Inv ∧ (State.resetWith stim).WellFormed

/-- R28: every step keeps the invariant, from every state that has it. -/
def Obligations.StepKeepsTheInvariant : Prop :=
  ∀ s t : State, s.Inv → step s = .next t → t.Inv

/-- R28: every state a run from reset reaches has the invariant. -/
def Obligations.ReachableStatesAreWellFormed : Prop :=
  ∀ (stim : List HostEvent) (k : Nat) (t : State), run k (State.resetWith stim) = .next t → t.Inv

/-- R170, R183: from a state with the invariant after a reset edge no host can stop the block; every run
from reset whose clock does not stop goes on for ever. -/
def Obligations.TheBlockNeverStops : Prop :=
  (∀ s : State, s.Inv → s.resetSeen = true → ∃ t, step s = .next t) ∧
  (∀ (stim : List HostEvent) (k : Nat), HostEvent.clockStop ∉ stim →
    ∃ t, run k (State.resetWith stim) = .next t ∧ t.resetSeen = true)

/-! ### What cannot be observed -/

/-- R37: stale queue entries are not observable.  Two states that agree on all but them take the same
steps, show the same at the ports and stay so. -/
def Obligations.StaleEntriesAreNotObservable : Prop :=
  ∀ s s' : State, SameLive s s' →
    (∀ i, outputs s i = outputs s' i) ∧
    (∀ t, step s = .next t → ∃ t', step s' = .next t' ∧ SameLive t t') ∧
    (∀ r, step s = .refused r → step s' = .refused r)

/-- R24, R37: `POL` is seen only through the samples of a stateful scheme.  Two states that differ in `POL`
while no BIT reads it take the same steps and show the same until a START makes them equal. -/
def Obligations.UnreadPolIsNotObservable : Prop :=
  ∀ s s' : State, SameButUnreadPol s s' →
    (∀ i, outputs s i = outputs s' i) ∧
    (∀ t, step s = .next t → ∃ t', step s' = .next t' ∧ SameButUnreadPol t t') ∧
    (∀ r, step s = .refused r → step s' = .refused r)

/-! ### Frames -/

/-- R121, R53: what a frame has delivered and still holds is `encode` of its bits, sample by sample and in
order, whatever the host's timing; once the queue is empty it has delivered exactly that. -/
def Obligations.FrameDeliversTheLineCode : Prop :=
  ∀ (sc : Scheme) (bits : List Bit1) (k : Nat) (s t : State) (opening : TraceEntry)
    (rest : List TraceEntry), FrameRun sc bits k s t opening rest →
    deliveredSamples rest ++ t.queue = (lineSamples sc bits).map sampleWord ∧
    (t.qcnt = 0#2 → (deliveredSamples rest).map sampleLevel = (lineLevels sc bits).map enc) ∧
    t.active = true ∧ t.scheme = sc.code ∧ t.err = s.err ∧
    t.pol = polBit (carriedAfter sc (seed sc) bits)

/-- R122: the number of samples a frame delivers. -/
def Obligations.FrameLength : Prop :=
  ∀ (sc : Scheme) (bits : List Bit1) (k : Nat) (s t : State) (opening : TraceEntry)
    (rest : List TraceEntry), FrameRun sc bits k s t opening rest → t.qcnt = 0#2 →
    (sc ∈ [Scheme.unipolar, .nrzl, .nrzi, .ami, .b8zs, .hdb3] →
      (deliveredSamples rest).length = bits.length) ∧
    (sc ∈ [Scheme.rz, .manchester, .diffManchester] →
      (deliveredSamples rest).length = 2 * bits.length)

/-- R123: a frame's output depends only on its scheme and its bits, not on the state it starts from, on
what came before, or on the host's timing. -/
def Obligations.FramesAreIndependent : Prop :=
  ∀ (sc : Scheme) (bits : List Bit1) (k k' : Nat) (s t s' t' : State) (opening opening' : TraceEntry)
    (rest rest' : List TraceEntry), FrameRun sc bits k s t opening rest →
    FrameRun sc bits k' s' t' opening' rest' →
    deliveredSamples rest ++ t.queue = deliveredSamples rest' ++ t'.queue ∧
    (t.qcnt = 0#2 → t'.qcnt = 0#2 → deliveredSamples rest = deliveredSamples rest')

/-- R126: B8ZS and HDB3 frames deliver what the AMI frame of the same bits delivers; only `status_scheme`
tells them apart. -/
def Obligations.B8zsAndHdb3EqualAmi : Prop :=
  ∀ (sc : Scheme) (bits : List Bit1) (k k' : Nat) (s t s' t' : State) (opening opening' : TraceEntry)
    (rest rest' : List TraceEntry), sc = .b8zs ∨ sc = .hdb3 →
    FrameRun sc bits k s t opening rest → FrameRun .ami bits k' s' t' opening' rest' →
    deliveredSamples rest ++ t.queue = deliveredSamples rest' ++ t'.queue ∧ t.pol = t'.pol ∧
    t.scheme ≠ t'.scheme ∧ (∀ n : Nat, lineLevels sc (List.replicate n 0#1) = List.replicate n .zero)

/-- R124: a frame with no BIT delivers no sample and raises no error. -/
def Obligations.EmptyFrameIsSilent : Prop :=
  ∀ (sc : Scheme) (k : Nat) (s t : State) (opening : TraceEntry) (rest : List TraceEntry),
    FrameRun sc [] k s t opening rest →
    deliveredSamples rest = [] ∧ t.queue = [] ∧ t.err = s.err ∧ t.active = true

/-- R125: a START accepted while a frame is open ends it and opens the new one at the same edge: all that
waited is delivered by that edge, and the new seed does not depend on the old `POL`. -/
def Obligations.StartEndsTheOpenFrame : Prop :=
  ∀ (s : State) (i : Inputs) (rest : List HostEvent) (sc : Scheme), s.stimulus = .cycle i :: rest →
    s.resetSeen = true → s.active = true → i.cmdValid = true → (outputs s i).cmdReady = true →
    i.cmd = encode (startInstr sc) →
    ∃ t, step s = .next t ∧ (TraceEntry.edge i (outputs s i)).delivered.toList = s.queue ∧
      t.queue = [] ∧ t.active = true ∧ t.scheme = sc.code ∧ t.pol = polBit (seed sc) ∧ t.err = s.err

/-! ### Timing and progress -/

/-- R99, R208: with `out_ready` held 1, a single-sample frame of n bits has START at edge 0, a BIT at each of
the edges 1 to n, and its last sample delivered at edge n + 1. -/
def Obligations.SingleSampleFrameTiming : Prop :=
  ∀ (sc : Scheme) (bits : List Bit1) (s : State) (later : List HostEvent), samplesPerBit sc = 1 →
    s.resetSeen = true → s.qcnt = 0#2 → s.stimulus = backToBack (frameWords sc bits) ++ later →
    ∃ t opening rest, FrameRun sc bits (bits.length + 2) s t opening rest ∧
      t.stimulus = later ∧ t.qcnt = 0#2 ∧
      rest.map TraceEntry.accepted = bits.map (fun d => some (encode (.bit d))) ++ [none] ∧
      rest.map TraceEntry.delivered = none :: (lineSamples sc bits).map (some <| sampleWord ·)

/-- R99, R208: with `out_ready` held 1, a dual-sample frame of n bits has START at edge 0, BITs at the edges
1, 3, …, 2n − 1, whatever the host offers at the edges between, and its last sample delivered at edge
2n + 1, one sample in each cycle.  Each bit comes with the `cmd_valid` and `cmd` of the cycle after it. -/
def Obligations.DualSampleFrameTiming : Prop :=
  ∀ (sc : Scheme) (slots : List (Bit1 × Bool × CmdWord)) (bits : List Bit1) (s : State)
    (later : List HostEvent), bits = slots.map Prod.fst →
    samplesPerBit sc = 2 → s.resetSeen = true → s.qcnt = 0#2 →
    s.stimulus = everySecondCycle (encode (startInstr sc))
      (slots.map fun x => (encode (.bit x.1), .cycle ⟨false, x.2.1, x.2.2, true⟩)) ++ later →
    ∃ t opening rest, FrameRun sc bits (2 * bits.length + 2) s t opening rest ∧
      t.stimulus = later ∧ t.qcnt = 0#2 ∧
      rest.map TraceEntry.accepted =
        bits.flatMap (fun d => [some (encode (.bit d)), none]) ++ [none] ∧
      rest.map TraceEntry.delivered = none :: (lineSamples sc bits).map (some <| sampleWord ·)

/-- R209: the block never withholds `out_valid` from a non-empty queue nor `cmd_ready` from an empty one; a
host that takes samples for two cycles and offers nothing empties the queue. -/
def Obligations.TheQueueDrains : Prop :=
  (∀ (s : State) (i : Inputs), i.rst = false →
    (s.qcnt ≠ 0#2 → (outputs s i).outValid = true) ∧ (s.qcnt = 0#2 → (outputs s i).cmdReady = true)) ∧
  (∀ (s : State) (later : List HostEvent), s.Inv → s.resetSeen = true →
    s.stimulus = takeOnly :: takeOnly :: later →
    ∃ t seen, run 2 s = .next t ∧ t.trace = s.trace ++ seen ∧ t.qcnt = 0#2 ∧
      deliveredSamples seen = s.queue)

/-- R102, R188: once a run has ended (no command to come, the queue empty) the block holds its state, neither
accepts nor delivers anything, and shows the same observation (log entry 14, DEDUCED), for as long as the
clock runs without a reset. -/
def Obligations.AnEndedRunStaysEnded : Prop :=
  ∀ (k : Nat) (s t : State), s.resetSeen = true → s.runEnded →
    (∀ e ∈ s.stimulus, ∃ i, e = HostEvent.cycle i ∧ i.rst = false) → run k s = .next t →
    t.runEnded ∧ t = { s with stimulus := t.stimulus, trace := t.trace } ∧
    t.observation = s.observation ∧
    ∃ seen, t.trace = s.trace ++ seen ∧ seen.length = k ∧ acceptedWords seen = [] ∧
      deliveredSamples seen = []

/-- R102, R120, R121: the observation of a run from reset, read off the trace as the model's log entry 14
(DEDUCED) says, each frame with the scheme of its START (the model's choice, log entry 15).  With the queue
empty, no sample was delivered outside a frame, and the frames seen are the frames sent, each with its line
code; runs that accepted the same words show the same, whatever their timing; and a host that goes on taking
samples for two cycles more brings its run to an end. -/
def Obligations.RunsShowTheFramesSent : Prop :=
  ∀ stim : List HostEvent, (∀ e ∈ stim, ∃ i, e = HostEvent.cycle i ∧ i.rst = false) →
    (∀ (k : Nat) (t : State), run k (State.resetWith stim) = .next t → t.qcnt = 0#2 →
      t.observation.outside = [] ∧
      t.observation.frames = (sentFrames (acceptedWords t.trace)).2.map
        fun f => ⟨f.1, (lineSamples f.1 f.2).map sampleWord⟩) ∧
    (∀ (stim' : List HostEvent) (k k' : Nat) (t t' : State),
      (∀ e ∈ stim', ∃ i, e = HostEvent.cycle i ∧ i.rst = false) →
      run k (State.resetWith stim) = .next t → run k' (State.resetWith stim') = .next t' →
      t.qcnt = 0#2 → t'.qcnt = 0#2 → acceptedWords t.trace = acceptedWords t'.trace →
      t.observation = t'.observation) ∧
    ∃ (k : Nat) (t : State), k ≤ stim.length + 2 ∧
      RunEndsAt (State.resetWith (stim ++ [takeOnly, takeOnly])) k t

/-! ### The assembler -/

/-- R81: the three commands of the assembler, and their spellings: a scheme by its mnemonic in either case
or by its document name in quotes. -/
def Obligations.AssemblerCommands : Prop :=
  (∀ sc : Scheme, assembleLine (.start sc) = .ok [encode (startInstr sc)] ∧
    (encode (startInstr sc)).toNat = 0x10 + sc.code.toNat) ∧
  (∀ d : Bit1, assembleLine (.bit d) = .ok [encode (.bit d)]) ∧
  (∀ v : Nat, v ≤ 0x1F → ∃ w, assembleLine (.raw v) = .ok [w] ∧ w.toNat = v) ∧
  (∀ v : Nat, 0x1F < v → assembleLine (.raw v) = .error .wordTooWide) ∧
  (∀ sc : Scheme,
    parseLine (['S', 'T', 'A', 'R', 'T', ' '] ++ schemeMnemonic sc) = .ok (some (.start sc)) ∧
    parseLine (['s', 't', 'a', 'r', 't', ' '] ++ (schemeMnemonic sc).map Char.toLower) =
      .ok (some (.start sc)) ∧
    parseLine (['S', 'T', 'A', 'R', 'T', ' ', '"'] ++ schemeName sc ++ ['"']) =
      .ok (some (.start sc))) ∧
  (∀ comment : List Char, parseLine (['B', 'I', 'T', ' ', '0', ' ', ';'] ++ comment) = .ok (some (.bit 0#1)) ∧
    parseLine (['B', 'I', 'T', ' ', '1', ' ', ';'] ++ comment) = .ok (some (.bit 1#1)) ∧
    parseLine (['.', 'c', 'm', 'd', ' ', '0', 'x', '1', 'B', ';'] ++ comment) = .ok (some (.raw 0x1B)) ∧
    parseLine (';' :: comment) = .ok none)

/-- R82, R83: ENCODE is a START and one BIT per character; COMPARE is ENCODE under the nine schemes in code
order; both refuse an empty or non-binary string. -/
def Obligations.PseudoInstructions : Prop :=
  (∀ (sc : Scheme) (bits : List Char), validBits bits = true →
    assembleLine (.encode sc bits) = .ok (encode (startInstr sc) ::
      bits.map fun c => if c = '1' then encode (.bit 1#1) else encode (.bit 0#1))) ∧
  (∀ bits : List Char, validBits bits = true →
    assembleLine (.compare bits) = assembleLines
      ([Scheme.unipolar, .nrzl, .nrzi, .rz, .manchester, .diffManchester, .ami, .b8zs, .hdb3].map
        fun sc => AsmLine.encode sc bits)) ∧
  (∀ bits : List Char, validBits bits = true ↔ bits ≠ [] ∧ ∀ c ∈ bits, c = '0' ∨ c = '1') ∧
  (∀ (sc : Scheme) (bits : List Char), validBits bits = false →
    assembleLine (.encode sc bits) = .error .invalidInput ∧
    assembleLine (.compare bits) = .error .invalidInput) ∧
  assembleLine (.encode .manchester ['1', '0']) = .ok [0x14#5, 0x01#5, 0x00#5]
end

