-- ==== Sys2Proof/Laws/Codes.lean ====
section
/-! SUPPORT. The lemmas of the value codes and of the decoder: polarities, levels, samples, schemes and
their codes. -/

namespace Sys2Proof.Machine

/-- A bit is 0 or 1. -/
theorem bit1_cases (d : Bit1) : d = 0#1 ∨ d = 1#1 := by
  revert d; decide

@[simp] theorem polVal_polBit (p : Polarity) : polVal (polBit p) = p := by cases p <;> rfl

@[simp] theorem polBit_polVal (b : Bit1) : polBit (polVal b) = b := by
  rcases bit1_cases b with rfl | rfl <;> rfl

@[simp] theorem negPol_negPol (p : Polarity) : negPol (negPol p) = p := by cases p <;> rfl

@[simp] theorem polBit_negPol (p : Polarity) : polBit (negPol p) = ~~~polBit p := by cases p <;> rfl

@[simp] theorem sampleLevel_sampleWord (x : Sample) : sampleLevel (sampleWord x) = enc x.level := by
  obtain ⟨l, ph⟩ := x
  rcases bit1_cases ph with rfl | rfl <;> cases l <;> rfl

@[simp] theorem samplePhase_sampleWord (x : Sample) : samplePhase (sampleWord x) = x.phase := by
  obtain ⟨l, ph⟩ := x
  rcases bit1_cases ph with rfl | rfl <;> cases l <;> rfl

/-- A queue entry is its level bits above its phase bit. -/
@[simp] theorem sampleLevel_append_samplePhase (w : SampleWord) : sampleLevel w ++ samplePhase w = w := by
  revert w; decide

@[simp] theorem schemeOfCode_code (sc : Scheme) : schemeOfCode sc.code = some sc := by cases sc <;> rfl

/-- A code has a scheme exactly when it is that scheme's code. -/
theorem schemeOfCode_eq_some {c : SchemeCode} {sc : Scheme} : schemeOfCode c = some sc ↔ c = sc.code := by
  revert c; cases sc <;> decide

/-- The codes with a scheme are 0 to 8. -/
theorem schemeOfCode_of_le {c : SchemeCode} (h : c ≤ 8#4) : ∃ sc, schemeOfCode c = some sc := by
  have : ∀ c : SchemeCode, c ≤ 8#4 → (schemeOfCode c).isSome := by decide
  exact Option.isSome_iff_exists.mp (this c h)

/-- The codes 9 to 15 have no scheme. -/
theorem schemeOfCode_of_gt {c : SchemeCode} (h : 8#4 < c) : schemeOfCode c = none := by
  revert c; decide

/-- The code of a scheme is at most 8. -/
theorem code_le (sc : Scheme) : sc.code ≤ 8#4 := by cases sc <;> decide

theorem encode_startInstr (sc : Scheme) : encode (startInstr sc) = encodeStart sc.code := by
  cases sc <;> rfl

@[simp] theorem decode_encode_startInstr (sc : Scheme) :
    decode (encode (startInstr sc)) = .command (startInstr sc) := by cases sc <;> rfl

@[simp] theorem decode_encode_bit (d : Bit1) : decode (encode (.bit d)) = .command (.bit d) := by
  rcases bit1_cases d with rfl | rfl <;> rfl

theorem startInstr_injective {a b : Scheme} (h : startInstr a = startInstr b) : a = b := by
  cases a <;> cases b <;> first | rfl | cases h

theorem startInstr_ne_bit (sc : Scheme) (d : Bit1) : startInstr sc ≠ .bit d := by
  cases sc <;> intro h <;> cases h

/-- A command is a BIT or the START of a scheme. -/
theorem instr_cases (i : Instr) : (∃ d, i = .bit d) ∨ ∃ sc, i = startInstr sc := by
  cases i with
  | bit d => exact .inl ⟨d, rfl⟩
  | startUnipolar => exact .inr ⟨.unipolar, rfl⟩
  | startNrzl => exact .inr ⟨.nrzl, rfl⟩
  | startNrzi => exact .inr ⟨.nrzi, rfl⟩
  | startRz => exact .inr ⟨.rz, rfl⟩
  | startManchester => exact .inr ⟨.manchester, rfl⟩
  | startDiffManchester => exact .inr ⟨.diffManchester, rfl⟩
  | startAmi => exact .inr ⟨.ami, rfl⟩
  | startB8zs => exact .inr ⟨.b8zs, rfl⟩
  | startHdb3 => exact .inr ⟨.hdb3, rfl⟩

/-- The decoder raises UnknownScheme and IllegalCommand only. -/
theorem decode_ne_bitOutsideFrame (w : CmdWord) : decode w ≠ .error .bitOutsideFrame := by
  revert w; decide

end Sys2Proof.Machine
end

