-- ==== Sys2Proof/Laws/State.lean ====
section
/-! SUPPORT. One lemma per field per update of the state, so that no proof unfolds a record update. -/

namespace Sys2Proof.Machine

/-! ### openFrame -/

@[simp] theorem State.openFrame_scheme (c : SchemeCode) (p : Polarity) (s : State) :
    (s.openFrame c p).scheme = c := rfl
@[simp] theorem State.openFrame_pol (c : SchemeCode) (p : Polarity) (s : State) :
    (s.openFrame c p).pol = polBit p := rfl
@[simp] theorem State.openFrame_active (c : SchemeCode) (p : Polarity) (s : State) :
    (s.openFrame c p).active = true := rfl
@[simp] theorem State.openFrame_qcnt (c : SchemeCode) (p : Polarity) (s : State) :
    (s.openFrame c p).qcnt = s.qcnt := rfl
@[simp] theorem State.openFrame_q0 (c : SchemeCode) (p : Polarity) (s : State) :
    (s.openFrame c p).q0 = s.q0 := rfl
@[simp] theorem State.openFrame_q1 (c : SchemeCode) (p : Polarity) (s : State) :
    (s.openFrame c p).q1 = s.q1 := rfl
@[simp] theorem State.openFrame_err (c : SchemeCode) (p : Polarity) (s : State) :
    (s.openFrame c p).err = s.err := rfl
@[simp] theorem State.openFrame_resetSeen (c : SchemeCode) (p : Polarity) (s : State) :
    (s.openFrame c p).resetSeen = s.resetSeen := rfl
@[simp] theorem State.openFrame_draws (c : SchemeCode) (p : Polarity) (s : State) :
    (s.openFrame c p).draws = s.draws := rfl
@[simp] theorem State.openFrame_stimulus (c : SchemeCode) (p : Polarity) (s : State) :
    (s.openFrame c p).stimulus = s.stimulus := rfl
@[simp] theorem State.openFrame_trace (c : SchemeCode) (p : Polarity) (s : State) :
    (s.openFrame c p).trace = s.trace := rfl

/-! ### raiseError -/

@[simp] theorem State.raiseError_scheme (e : ErrorKind) (s : State) :
    (s.raiseError e).scheme = s.scheme := rfl
@[simp] theorem State.raiseError_pol (e : ErrorKind) (s : State) :
    (s.raiseError e).pol = s.pol := rfl
@[simp] theorem State.raiseError_active (e : ErrorKind) (s : State) :
    (s.raiseError e).active = false := rfl
@[simp] theorem State.raiseError_qcnt (e : ErrorKind) (s : State) :
    (s.raiseError e).qcnt = s.qcnt := rfl
@[simp] theorem State.raiseError_q0 (e : ErrorKind) (s : State) :
    (s.raiseError e).q0 = s.q0 := rfl
@[simp] theorem State.raiseError_q1 (e : ErrorKind) (s : State) :
    (s.raiseError e).q1 = s.q1 := rfl
@[simp] theorem State.raiseError_err (e : ErrorKind) (s : State) :
    (s.raiseError e).err = firstError s.err e := rfl
@[simp] theorem State.raiseError_resetSeen (e : ErrorKind) (s : State) :
    (s.raiseError e).resetSeen = s.resetSeen := rfl
@[simp] theorem State.raiseError_draws (e : ErrorKind) (s : State) :
    (s.raiseError e).draws = s.draws := rfl
@[simp] theorem State.raiseError_stimulus (e : ErrorKind) (s : State) :
    (s.raiseError e).stimulus = s.stimulus := rfl
@[simp] theorem State.raiseError_trace (e : ErrorKind) (s : State) :
    (s.raiseError e).trace = s.trace := rfl

/-! ### writePol -/

@[simp] theorem State.writePol_scheme (p : Polarity) (s : State) :
    (s.writePol p).scheme = s.scheme := rfl
@[simp] theorem State.writePol_pol (p : Polarity) (s : State) :
    (s.writePol p).pol = polBit p := rfl
@[simp] theorem State.writePol_active (p : Polarity) (s : State) :
    (s.writePol p).active = s.active := rfl
@[simp] theorem State.writePol_qcnt (p : Polarity) (s : State) :
    (s.writePol p).qcnt = s.qcnt := rfl
@[simp] theorem State.writePol_q0 (p : Polarity) (s : State) :
    (s.writePol p).q0 = s.q0 := rfl
@[simp] theorem State.writePol_q1 (p : Polarity) (s : State) :
    (s.writePol p).q1 = s.q1 := rfl
@[simp] theorem State.writePol_err (p : Polarity) (s : State) :
    (s.writePol p).err = s.err := rfl
@[simp] theorem State.writePol_resetSeen (p : Polarity) (s : State) :
    (s.writePol p).resetSeen = s.resetSeen := rfl
@[simp] theorem State.writePol_draws (p : Polarity) (s : State) :
    (s.writePol p).draws = s.draws := rfl
@[simp] theorem State.writePol_stimulus (p : Polarity) (s : State) :
    (s.writePol p).stimulus = s.stimulus := rfl
@[simp] theorem State.writePol_trace (p : Polarity) (s : State) :
    (s.writePol p).trace = s.trace := rfl

/-! ### loadSamples -/

@[simp] theorem State.loadSamples_scheme (x : BitSamples) (s : State) :
    (s.loadSamples x).scheme = s.scheme := by cases x <;> rfl
@[simp] theorem State.loadSamples_pol (x : BitSamples) (s : State) :
    (s.loadSamples x).pol = s.pol := by cases x <;> rfl
@[simp] theorem State.loadSamples_active (x : BitSamples) (s : State) :
    (s.loadSamples x).active = s.active := by cases x <;> rfl
@[simp] theorem State.loadSamples_err (x : BitSamples) (s : State) :
    (s.loadSamples x).err = s.err := by cases x <;> rfl
@[simp] theorem State.loadSamples_resetSeen (x : BitSamples) (s : State) :
    (s.loadSamples x).resetSeen = s.resetSeen := by cases x <;> rfl
@[simp] theorem State.loadSamples_draws (x : BitSamples) (s : State) :
    (s.loadSamples x).draws = s.draws := by cases x <;> rfl
@[simp] theorem State.loadSamples_stimulus (x : BitSamples) (s : State) :
    (s.loadSamples x).stimulus = s.stimulus := by cases x <;> rfl
@[simp] theorem State.loadSamples_trace (x : BitSamples) (s : State) :
    (s.loadSamples x).trace = s.trace := by cases x <;> rfl

@[simp] theorem State.loadSamples_single (a : Level) (s : State) :
    s.loadSamples (.single a) = { s with qcnt := 1#2, q0 := sampleWord ⟨a, 0#1⟩ } := rfl
@[simp] theorem State.loadSamples_pair (a b : Level) (s : State) :
    s.loadSamples (.pair a b) =
      { s with qcnt := 2#2, q0 := sampleWord ⟨a, 0#1⟩, q1 := sampleWord ⟨b, 1#1⟩ } := rfl

/-! ### popQueue -/

@[simp] theorem State.popQueue_scheme (s : State) :
    (s.popQueue).scheme = s.scheme := by unfold State.popQueue; split <;> rfl
@[simp] theorem State.popQueue_pol (s : State) :
    (s.popQueue).pol = s.pol := by unfold State.popQueue; split <;> rfl
@[simp] theorem State.popQueue_active (s : State) :
    (s.popQueue).active = s.active := by unfold State.popQueue; split <;> rfl
@[simp] theorem State.popQueue_qcnt (s : State) :
    (s.popQueue).qcnt = if s.qcnt = 2#2 then 1#2 else 0#2 := by unfold State.popQueue; split <;> rfl
@[simp] theorem State.popQueue_q0 (s : State) :
    (s.popQueue).q0 = if s.qcnt = 2#2 then s.q1 else s.q0 := by unfold State.popQueue; split <;> rfl
@[simp] theorem State.popQueue_q1 (s : State) :
    (s.popQueue).q1 = s.q1 := by unfold State.popQueue; split <;> rfl
@[simp] theorem State.popQueue_err (s : State) :
    (s.popQueue).err = s.err := by unfold State.popQueue; split <;> rfl
@[simp] theorem State.popQueue_resetSeen (s : State) :
    (s.popQueue).resetSeen = s.resetSeen := by unfold State.popQueue; split <;> rfl
@[simp] theorem State.popQueue_draws (s : State) :
    (s.popQueue).draws = s.draws := by unfold State.popQueue; split <;> rfl
@[simp] theorem State.popQueue_stimulus (s : State) :
    (s.popQueue).stimulus = s.stimulus := by unfold State.popQueue; split <;> rfl
@[simp] theorem State.popQueue_trace (s : State) :
    (s.popQueue).trace = s.trace := by unfold State.popQueue; split <;> rfl

/-! ### resetRegisters -/

@[simp] theorem State.resetRegisters_scheme (s : State) :
    (s.resetRegisters).scheme = 0#4 := rfl
@[simp] theorem State.resetRegisters_pol (s : State) :
    (s.resetRegisters).pol = 0#1 := rfl
@[simp] theorem State.resetRegisters_active (s : State) :
    (s.resetRegisters).active = false := rfl
@[simp] theorem State.resetRegisters_qcnt (s : State) :
    (s.resetRegisters).qcnt = 0#2 := rfl
@[simp] theorem State.resetRegisters_q0 (s : State) :
    (s.resetRegisters).q0 = 0#3 := rfl
@[simp] theorem State.resetRegisters_q1 (s : State) :
    (s.resetRegisters).q1 = 0#3 := rfl
@[simp] theorem State.resetRegisters_err (s : State) :
    (s.resetRegisters).err = 0#2 := rfl
@[simp] theorem State.resetRegisters_resetSeen (s : State) :
    (s.resetRegisters).resetSeen = true := rfl
@[simp] theorem State.resetRegisters_draws (s : State) :
    (s.resetRegisters).draws = s.draws := rfl
@[simp] theorem State.resetRegisters_stimulus (s : State) :
    (s.resetRegisters).stimulus = s.stimulus := rfl
@[simp] theorem State.resetRegisters_trace (s : State) :
    (s.resetRegisters).trace = s.trace := rfl

/-! ### loseRegisters -/

@[simp] theorem State.loseRegisters_scheme (s : State) :
    (s.loseRegisters).scheme = Config.freeScheme s.draws := rfl
@[simp] theorem State.loseRegisters_pol (s : State) :
    (s.loseRegisters).pol = Config.freePol s.draws := rfl
@[simp] theorem State.loseRegisters_active (s : State) :
    (s.loseRegisters).active = Config.freeActive s.draws := rfl
@[simp] theorem State.loseRegisters_qcnt (s : State) :
    (s.loseRegisters).qcnt = Config.freeQcnt s.draws := rfl
@[simp] theorem State.loseRegisters_q0 (s : State) :
    (s.loseRegisters).q0 = Config.freeQ0 s.draws := rfl
@[simp] theorem State.loseRegisters_q1 (s : State) :
    (s.loseRegisters).q1 = Config.freeQ1 s.draws := rfl
@[simp] theorem State.loseRegisters_err (s : State) :
    (s.loseRegisters).err = Config.freeErr s.draws := rfl
@[simp] theorem State.loseRegisters_resetSeen (s : State) :
    (s.loseRegisters).resetSeen = false := rfl
@[simp] theorem State.loseRegisters_draws (s : State) :
    (s.loseRegisters).draws = s.draws + 1 := rfl
@[simp] theorem State.loseRegisters_stimulus (s : State) :
    (s.loseRegisters).stimulus = s.stimulus := rfl
@[simp] theorem State.loseRegisters_trace (s : State) :
    (s.loseRegisters).trace = s.trace := rfl

/-! ### record -/

@[simp] theorem State.record_scheme (e : TraceEntry) (s : State) :
    (s.record e).scheme = s.scheme := rfl
@[simp] theorem State.record_pol (e : TraceEntry) (s : State) :
    (s.record e).pol = s.pol := rfl
@[simp] theorem State.record_active (e : TraceEntry) (s : State) :
    (s.record e).active = s.active := rfl
@[simp] theorem State.record_qcnt (e : TraceEntry) (s : State) :
    (s.record e).qcnt = s.qcnt := rfl
@[simp] theorem State.record_q0 (e : TraceEntry) (s : State) :
    (s.record e).q0 = s.q0 := rfl
@[simp] theorem State.record_q1 (e : TraceEntry) (s : State) :
    (s.record e).q1 = s.q1 := rfl
@[simp] theorem State.record_err (e : TraceEntry) (s : State) :
    (s.record e).err = s.err := rfl
@[simp] theorem State.record_resetSeen (e : TraceEntry) (s : State) :
    (s.record e).resetSeen = s.resetSeen := rfl
@[simp] theorem State.record_draws (e : TraceEntry) (s : State) :
    (s.record e).draws = s.draws := rfl
@[simp] theorem State.record_stimulus (e : TraceEntry) (s : State) :
    (s.record e).stimulus = s.stimulus.tail := rfl
@[simp] theorem State.record_trace (e : TraceEntry) (s : State) :
    (s.record e).trace = s.trace ++ [e] := rfl

/-! ### recordCycle -/

@[simp] theorem State.recordCycle_scheme (i : Inputs) (s : State) :
    (s.recordCycle i).scheme = s.scheme := rfl
@[simp] theorem State.recordCycle_pol (i : Inputs) (s : State) :
    (s.recordCycle i).pol = s.pol := rfl
@[simp] theorem State.recordCycle_active (i : Inputs) (s : State) :
    (s.recordCycle i).active = s.active := rfl
@[simp] theorem State.recordCycle_qcnt (i : Inputs) (s : State) :
    (s.recordCycle i).qcnt = s.qcnt := rfl
@[simp] theorem State.recordCycle_q0 (i : Inputs) (s : State) :
    (s.recordCycle i).q0 = s.q0 := rfl
@[simp] theorem State.recordCycle_q1 (i : Inputs) (s : State) :
    (s.recordCycle i).q1 = s.q1 := rfl
@[simp] theorem State.recordCycle_err (i : Inputs) (s : State) :
    (s.recordCycle i).err = s.err := rfl
@[simp] theorem State.recordCycle_resetSeen (i : Inputs) (s : State) :
    (s.recordCycle i).resetSeen = s.resetSeen := rfl
@[simp] theorem State.recordCycle_draws (i : Inputs) (s : State) :
    (s.recordCycle i).draws = s.draws := rfl
@[simp] theorem State.recordCycle_stimulus (i : Inputs) (s : State) :
    (s.recordCycle i).stimulus = s.stimulus.tail := rfl
@[simp] theorem State.recordCycle_trace (i : Inputs) (s : State) :
    (s.recordCycle i).trace = s.trace ++ [.edge i (outputs s i)] := rfl

/-! ### afterDelivery -/

@[simp] theorem State.afterDelivery_scheme (i : Inputs) (s : State) :
    (s.afterDelivery i).scheme = s.scheme := by unfold State.afterDelivery; split <;> simp
@[simp] theorem State.afterDelivery_pol (i : Inputs) (s : State) :
    (s.afterDelivery i).pol = s.pol := by unfold State.afterDelivery; split <;> simp
@[simp] theorem State.afterDelivery_active (i : Inputs) (s : State) :
    (s.afterDelivery i).active = s.active := by unfold State.afterDelivery; split <;> simp
@[simp] theorem State.afterDelivery_qcnt (i : Inputs) (s : State) :
    (s.afterDelivery i).qcnt = if delivers s i then (if s.qcnt = 2#2 then 1#2 else 0#2) else s.qcnt := by unfold State.afterDelivery; split <;> simp
@[simp] theorem State.afterDelivery_q0 (i : Inputs) (s : State) :
    (s.afterDelivery i).q0 = if delivers s i then (if s.qcnt = 2#2 then s.q1 else s.q0) else s.q0 := by unfold State.afterDelivery; split <;> simp
@[simp] theorem State.afterDelivery_q1 (i : Inputs) (s : State) :
    (s.afterDelivery i).q1 = s.q1 := by unfold State.afterDelivery; split <;> simp
@[simp] theorem State.afterDelivery_err (i : Inputs) (s : State) :
    (s.afterDelivery i).err = s.err := by unfold State.afterDelivery; split <;> simp
@[simp] theorem State.afterDelivery_resetSeen (i : Inputs) (s : State) :
    (s.afterDelivery i).resetSeen = s.resetSeen := by unfold State.afterDelivery; split <;> simp
@[simp] theorem State.afterDelivery_draws (i : Inputs) (s : State) :
    (s.afterDelivery i).draws = s.draws := by unfold State.afterDelivery; split <;> simp
@[simp] theorem State.afterDelivery_stimulus (i : Inputs) (s : State) :
    (s.afterDelivery i).stimulus = s.stimulus := by unfold State.afterDelivery; split <;> simp
@[simp] theorem State.afterDelivery_trace (i : Inputs) (s : State) :
    (s.afterDelivery i).trace = s.trace := by unfold State.afterDelivery; split <;> simp

end Sys2Proof.Machine
end

