-- ==== Sys2Proof/Laws/Meanings.lean ====
section
/-! SUPPORT. The mapper and the meanings: what a START does, what a BIT does in each of its three cases,
and once, what an executed word can do at all. -/

namespace Sys2Proof.Machine

/-- Every START opens a frame of its scheme (R110 to R118). -/
@[simp] theorem exec_startInstr (sc : Scheme) (s : State) :
    exec (startInstr sc) s = .next (s.openFrame sc.code (seed sc)) := by cases sc <;> rfl

/-- A BIT outside a frame takes the error action (R175). -/
theorem exec_bit_outside {s : State} (h : s.active = false) (d : Bit1) :
    exec (.bit d) s = .next (s.raiseError .bitOutsideFrame) := by
  simp [exec, execBit, h]

/-- A BIT of a frame is encoded by the rule of its scheme (R119). -/
theorem exec_bit_inside {s : State} {sc : Scheme} (h : s.active = true) (hs : s.scheme = sc.code)
    (d : Bit1) : exec (.bit d) s = .next (encodeBit sc d s) := by
  simp [exec, execBit, h, hs]

/-- A BIT of a frame whose code has no scheme is refused. -/
theorem exec_bit_unassigned {s : State} (h : s.active = true) (hs : schemeOfCode s.scheme = none)
    (d : Bit1) : exec (.bit d) s = .refused .schemeCodeUnassigned := by
  simp [exec, execBit, h, hs]

@[simp] theorem encodeBit_scheme (sc : Scheme) (d : Bit1) (s : State) :
    (encodeBit sc d s).scheme = s.scheme := by simp [encodeBit]
@[simp] theorem encodeBit_active (sc : Scheme) (d : Bit1) (s : State) :
    (encodeBit sc d s).active = s.active := by simp [encodeBit]
@[simp] theorem encodeBit_err (sc : Scheme) (d : Bit1) (s : State) :
    (encodeBit sc d s).err = s.err := by simp [encodeBit]
@[simp] theorem encodeBit_resetSeen (sc : Scheme) (d : Bit1) (s : State) :
    (encodeBit sc d s).resetSeen = s.resetSeen := by simp [encodeBit]
@[simp] theorem encodeBit_draws (sc : Scheme) (d : Bit1) (s : State) :
    (encodeBit sc d s).draws = s.draws := by simp [encodeBit]
@[simp] theorem encodeBit_stimulus (sc : Scheme) (d : Bit1) (s : State) :
    (encodeBit sc d s).stimulus = s.stimulus := by simp [encodeBit]
@[simp] theorem encodeBit_trace (sc : Scheme) (d : Bit1) (s : State) :
    (encodeBit sc d s).trace = s.trace := by simp [encodeBit]
@[simp] theorem encodeBit_pol (sc : Scheme) (d : Bit1) (s : State) :
    (encodeBit sc d s).pol = polBit (symbolMap sc d (polVal s.pol)).carried := by simp [encodeBit]

@[simp] theorem queue_writePol (p : Polarity) (s : State) : (s.writePol p).queue = s.queue := rfl

/-- The samples loaded are the whole queue (R119, R150). -/
@[simp] theorem queue_loadSamples (x : BitSamples) (s : State) :
    (s.loadSamples x).queue = (sampleList x).map sampleWord := by cases x <;> rfl

/-- A BIT's samples are the whole queue after its edge (R97, R119). -/
@[simp] theorem encodeBit_queue (sc : Scheme) (d : Bit1) (s : State) :
    (encodeBit sc d s).queue =
      (sampleList (symbolMap sc d (polVal s.pol)).samples).map sampleWord := by simp [encodeBit]

/-- A BIT leaves one or two samples (R136, R151). -/
theorem encodeBit_qcnt (sc : Scheme) (d : Bit1) (s : State) :
    (encodeBit sc d s).qcnt = 1#2 ∨ (encodeBit sc d s).qcnt = 2#2 := by
  cases h : (symbolMap sc d (polVal s.pol)).samples <;> simp [encodeBit, h]

/-- What an executed command can do: open a frame, encode a bit, or take the error action. -/
theorem exec_next_cases {i : Instr} {s t : State} (h : exec i s = .next t) :
    (∃ sc, i = startInstr sc ∧ t = s.openFrame sc.code (seed sc)) ∨
    (∃ d sc, i = .bit d ∧ s.active = true ∧ s.scheme = sc.code ∧ t = encodeBit sc d s) ∨
    (∃ d, i = .bit d ∧ s.active = false ∧ t = s.raiseError .bitOutsideFrame) := by
  rcases instr_cases i with ⟨d, rfl⟩ | ⟨sc, rfl⟩
  · right
    cases ha : s.active with
    | false =>
      rw [exec_bit_outside ha] at h
      cases h
      exact .inr ⟨d, rfl, rfl, rfl⟩
    | true =>
      cases hc : schemeOfCode s.scheme with
      | none => rw [exec_bit_unassigned ha hc] at h; cases h
      | some sc =>
        have hs := schemeOfCode_eq_some.mp hc
        rw [exec_bit_inside ha hs] at h
        cases h
        exact .inl ⟨d, sc, rfl, rfl, hs, rfl⟩
  · rw [exec_startInstr] at h
    cases h
    exact .inl ⟨sc, rfl, rfl⟩

end Sys2Proof.Machine
end

