-- ==== Sys2Proof/Laws/PerInstr.lean ====
section
/-! SUPPORT. The statements made once per instruction: the family RoundTrip, that a command is well formed
and its encoding decodes to it (spec/30_encoding.md R71 to R75). -/

namespace Sys2Proof.Laws.RoundTrip

open Sys2Proof

/-- The command is well formed and its word decodes to it. -/
def Statement (i : Instr) : Prop := i.wf = true ∧ decode (encode i) = .command i

theorem bit (d : Bit1) : Statement (.bit d) := ⟨rfl, Machine.decode_encode_bit d⟩
theorem startUnipolar : Statement .startUnipolar := ⟨rfl, rfl⟩
theorem startNrzl : Statement .startNrzl := ⟨rfl, rfl⟩
theorem startNrzi : Statement .startNrzi := ⟨rfl, rfl⟩
theorem startRz : Statement .startRz := ⟨rfl, rfl⟩
theorem startManchester : Statement .startManchester := ⟨rfl, rfl⟩
theorem startDiffManchester : Statement .startDiffManchester := ⟨rfl, rfl⟩
theorem startAmi : Statement .startAmi := ⟨rfl, rfl⟩
theorem startB8zs : Statement .startB8zs := ⟨rfl, rfl⟩
theorem startHdb3 : Statement .startHdb3 := ⟨rfl, rfl⟩

end Sys2Proof.Laws.RoundTrip
end

