-- ==== Sys2Proof/Laws/Step.lean ====
section
/-! SUPPORT. What one edge and one step can do, said once: every later fact about a step goes through
`step_next_cases`. -/

namespace Sys2Proof.Machine

@[simp] theorem outputs_cmdReady (s : State) (i : Inputs) : (outputs s i).cmdReady = cmdReady s i := rfl
@[simp] theorem outputs_outValid (s : State) (i : Inputs) : (outputs s i).outValid = outValid s i := rfl
@[simp] theorem outputs_outLevel (s : State) (i : Inputs) : (outputs s i).outLevel = outLevel s i := rfl
@[simp] theorem outputs_outPhase (s : State) (i : Inputs) : (outputs s i).outPhase = outPhase s i := rfl

/-- The bookkeeping of a cycle changes no register, so it changes no port. -/
@[simp] theorem outputs_recordCycle (s : State) (i j : Inputs) :
    outputs (s.recordCycle i) j = outputs s j := rfl
@[simp] theorem accepts_recordCycle (s : State) (i j : Inputs) :
    accepts (s.recordCycle i) j = accepts s j := rfl
@[simp] theorem delivers_recordCycle (s : State) (i j : Inputs) :
    delivers (s.recordCycle i) j = delivers s j := rfl

@[simp] theorem execute_command (i : Instr) (s : State) : execute (.command i) s = exec i s := rfl
@[simp] theorem execute_error (e : ErrorKind) (s : State) :
    execute (.error e) s = .next (s.raiseError e) := rfl

/-- A queue without a sample is the empty list. -/
theorem queue_of_qcnt_zero {s : State} (h : s.qcnt = 0#2) : s.queue = [] := by
  simp [State.queue, h]

theorem delivers_eq {s : State} {i : Inputs} :
    delivers s i = true ↔ i.rst = false ∧ s.qcnt ≠ 0#2 ∧ i.outReady = true := by
  simp [delivers, outValid, and_assoc]

theorem accepts_eq {s : State} {i : Inputs} :
    accepts s i = true ↔ i.cmdValid = true ∧ i.rst = false ∧
      (s.qcnt = 0#2 ∨ s.qcnt = 1#2 ∧ i.outReady = true) := by
  simp [accepts, cmdReady]

theorem accepts_iff {s : State} {i : Inputs} :
    accepts s i = true ↔ i.cmdValid = true ∧ (outputs s i).cmdReady = true := by
  simp [accepts]

/-- An accepted command meets an empty queue (R97). -/
theorem qcnt_afterDelivery_of_accepts {s : State} {i : Inputs} (h : accepts s i = true) :
    (s.afterDelivery i).qcnt = 0#2 := by
  obtain ⟨-, hr, h0 | ⟨h1, ho⟩⟩ := accepts_eq.mp h
  · have : delivers s i = false := by simp [delivers, outValid, h0]
    simp [this, h0]
  · have : delivers s i = true := delivers_eq.mpr ⟨hr, by simp [h1], ho⟩
    simp [this, h1]

/-- The ports see no more of the state than the queue count and the cycle's own wires. -/
theorem delivers_congr {s t : State} {i j : Inputs} (hq : s.qcnt = t.qcnt) (hr : i.rst = j.rst)
    (ho : i.outReady = j.outReady) : delivers s i = delivers t j := by
  simp [delivers, outValid, hq, hr, ho]

theorem accepts_congr {s t : State} {i j : Inputs} (hq : s.qcnt = t.qcnt) (hr : i.rst = j.rst)
    (hv : i.cmdValid = j.cmdValid) (ho : i.outReady = j.outReady) : accepts s i = accepts t j := by
  simp [accepts, cmdReady, hq, hr, hv, ho]

/-- The sample delivered in a cycle is the head of the queue (R91, R95). -/
theorem outLevel_append_outPhase {s : State} {i : Inputs} (h : outValid s i = true) :
    outLevel s i ++ outPhase s i = s.q0 := by
  simp [outLevel, outPhase, h]

/-- A delivery takes the head off the queue and nothing else does (R95). -/
theorem queue_afterDelivery {s : State} {i : Inputs} (h3 : s.qcnt ≠ 3#2) :
    (if delivers s i then [s.q0] else []) ++ (s.afterDelivery i).queue = s.queue := by
  have hq : s.qcnt = 0#2 ∨ s.qcnt = 1#2 ∨ s.qcnt = 2#2 := by
    have : ∀ q : QueueCount, q ≠ 3#2 → q = 0#2 ∨ q = 1#2 ∨ q = 2#2 := by decide
    exact this _ h3
  cases hd : delivers s i with
  | false => simp [State.afterDelivery, hd]
  | true =>
    have h0 := (delivers_eq.mp hd).2.1
    rcases hq with h | h | h
    · exact absurd h h0
    · simp [State.queue, h, hd]
    · simp [State.queue, h, hd]

/-- What an executed word can do: what a command can, or the error action of an error word. -/
theorem execute_next_cases {w : CmdWord} {s t : State} (h : execute (decode w) s = .next t) :
    (∃ sc, decode w = .command (startInstr sc) ∧ t = s.openFrame sc.code (seed sc)) ∨
    (∃ d sc, decode w = .command (.bit d) ∧ s.active = true ∧ s.scheme = sc.code ∧
      t = encodeBit sc d s) ∨
    (∃ e, (decode w = .error e ∨
        (e = .bitOutsideFrame ∧ s.active = false ∧ ∃ d, decode w = .command (.bit d))) ∧
      t = s.raiseError e) := by
  cases hd : decode w with
  | command i =>
    rw [hd] at h
    rcases exec_next_cases h with ⟨sc, rfl, ht⟩ | ⟨d, sc, rfl, ha, hs, ht⟩ | ⟨d, rfl, ha, ht⟩
    · exact .inl ⟨sc, rfl, ht⟩
    · exact .inr (.inl ⟨d, sc, rfl, ha, hs, ht⟩)
    · exact .inr (.inr ⟨_, .inr ⟨rfl, ha, d, rfl⟩, ht⟩)
  | error e =>
    rw [hd] at h
    cases h
    exact .inr (.inr ⟨e, .inl rfl, rfl⟩)

theorem step_of_cycle {s : State} {i : Inputs} (h : nextEvent s = .cycle i) :
    step s = clockEdge i (s.recordCycle i) := by
  simp [step, hostStep, h]

theorem step_of_clockStop {s : State} (h : nextEvent s = .clockStop) :
    step s = .next (s.record .clockStopped).loseRegisters := by
  simp [step, hostStep, h]

/-- The step of a cycle whose word is accepted after a reset edge (R96). -/
theorem step_of_accepts {s : State} {i : Inputs} (h : nextEvent s = .cycle i)
    (hseen : s.resetSeen = true) (ha : accepts s i = true) :
    step s = execute (decode i.cmd) ((s.recordCycle i).afterDelivery i) := by
  have hr : i.rst = false := (accepts_eq.mp ha).2.1
  simp [step_of_cycle h, clockEdge, hr, handshakeBeforeReset, hseen, ha]

/-- The step of a cycle that accepts nothing after a reset edge (R95). -/
theorem step_of_not_accepts {s : State} {i : Inputs} (h : nextEvent s = .cycle i)
    (hseen : s.resetSeen = true) (hr : i.rst = false) (ha : accepts s i = false) :
    step s = .next ((s.recordCycle i).afterDelivery i) := by
  simp [step_of_cycle h, clockEdge, hr, handshakeBeforeReset, hseen, ha]

/-- Everything a step can do when it answers a next state: a stop of the clock; a reset edge; a cycle
before the first reset edge in which nothing happens; a cycle that accepts nothing; or a cycle that executes
the accepted word. -/
theorem step_next_cases {s t : State} (h : step s = .next t) :
    (nextEvent s = .clockStop ∧ t = (s.record .clockStopped).loseRegisters) ∨
    ∃ i, nextEvent s = .cycle i ∧
      ((i.rst = true ∧ t = (s.recordCycle i).resetRegisters) ∨
        (i.rst = false ∧ s.resetSeen = false ∧ i.cmdValid = false ∧ delivers s i = false ∧
          t = s.recordCycle i) ∨
        (i.rst = false ∧ s.resetSeen = true ∧ accepts s i = false ∧
          t = (s.recordCycle i).afterDelivery i) ∨
        (i.rst = false ∧ s.resetSeen = true ∧ accepts s i = true ∧
          execute (decode i.cmd) ((s.recordCycle i).afterDelivery i) = .next t)) := by
  cases he : nextEvent s with
  | clockStop =>
    rw [step_of_clockStop he] at h
    cases h
    exact .inl ⟨rfl, rfl⟩
  | cycle i =>
    refine .inr ⟨i, rfl, ?_⟩
    cases hr : i.rst with
    | true =>
      rw [step_of_cycle he, clockEdge, if_pos hr] at h
      cases h
      exact .inl ⟨rfl, rfl⟩
    | false =>
      cases hs : s.resetSeen with
      | true =>
        cases ha : accepts s i with
        | true =>
          rw [step_of_accepts he hs ha] at h
          exact .inr (.inr (.inr ⟨rfl, rfl, rfl, h⟩))
        | false =>
          rw [step_of_not_accepts he hs hr ha] at h
          cases h
          exact .inr (.inr (.inl ⟨rfl, rfl, rfl, rfl⟩))
      | false =>
        rw [step_of_cycle he, clockEdge] at h
        simp only [hr, handshakeBeforeReset, State.recordCycle_resetSeen, hs] at h
        cases hv : i.cmdValid with
        | true => simp [hv] at h
        | false =>
          have hd : delivers s i = (i.outReady && outValid s i) := by simp [delivers, Bool.and_comm]
          have hd' : outValid (s.recordCycle i) i = outValid s i := rfl
          cases hdel : delivers s i with
          | true => rw [hdel] at hd; simp [hv, hd', ← hd] at h
          | false =>
            rw [hdel] at hd
            have hacc : accepts s i = false := by simp [accepts, hv]
            simp [hv, hd', ← hd, hacc, State.afterDelivery, hdel] at h
            exact .inr (.inl ⟨rfl, rfl, rfl, rfl, h.symm⟩)

/-- What a cycle that is no reset edge can do when it answers a next state: no command is accepted and at
most a sample leaves, or the accepted word is executed. -/
theorem step_cycle_cases {s t : State} {i : Inputs} (he : nextEvent s = .cycle i) (hr : i.rst = false)
    (h : step s = .next t) :
    (accepts s i = false ∧ t = (s.recordCycle i).afterDelivery i) ∨
    (s.resetSeen = true ∧ accepts s i = true ∧
      execute (decode i.cmd) ((s.recordCycle i).afterDelivery i) = .next t) := by
  rcases step_next_cases h with ⟨hc, -⟩ | ⟨j, hj, hcases⟩
  · rw [he] at hc
    cases hc
  · rw [he] at hj
    cases hj
    rcases hcases with ⟨h1, -⟩ | ⟨-, -, hv, hd, rfl⟩ | ⟨-, -, ha, rfl⟩ | ⟨-, hs, ha, hx⟩
    · rw [hr] at h1
      cases h1
    · exact .inl ⟨by simp [accepts, hv], by simp [State.afterDelivery, hd]⟩
    · exact .inl ⟨ha, rfl⟩
    · exact .inr ⟨hs, ha, hx⟩

/-- When a step is refused: a handshake before the first reset edge, or an accepted BIT of a frame whose
code has no scheme. -/
theorem step_refused_cases {s : State} {r : Refusal} (h : step s = .refused r) :
    (r = .handshakeBeforeReset ∧ s.resetSeen = false ∧
      ∃ i, nextEvent s = .cycle i ∧ i.rst = false ∧ handshakeBeforeReset s i = true) ∨
    (r = .schemeCodeUnassigned ∧ s.resetSeen = true ∧
      ∃ i d, nextEvent s = .cycle i ∧ accepts s i = true ∧ decode i.cmd = .command (.bit d) ∧
        s.active = true ∧ schemeOfCode s.scheme = none) := by
  cases he : nextEvent s with
  | clockStop => rw [step_of_clockStop he] at h; cases h
  | cycle i =>
    have eh : handshakeBeforeReset (s.recordCycle i) i = handshakeBeforeReset s i := rfl
    rw [step_of_cycle he, clockEdge, eh] at h
    cases hr : i.rst with
    | true => simp [hr] at h
    | false =>
      cases hh : handshakeBeforeReset s i with
      | true =>
        simp only [hr, hh] at h
        cases h
        simp only [handshakeBeforeReset, Bool.and_eq_true, Bool.not_eq_true'] at hh
        exact .inl ⟨rfl, hh.1.1, i, rfl, hr, by simpa [handshakeBeforeReset] using hh⟩
      | false =>
        cases ha : accepts s i with
        | false => simp [hr, hh, ha] at h
        | true =>
          have hs : s.resetSeen = true := by
            simpa [handshakeBeforeReset, hr, (accepts_eq.mp ha).1] using hh
          simp only [hr, hh, accepts_recordCycle, ha, if_true] at h
          cases hd : decode i.cmd with
          | error e => rw [hd] at h; cases h
          | command c =>
            rw [hd] at h
            rcases instr_cases c with ⟨d, rfl⟩ | ⟨sc, rfl⟩
            · cases hact : s.active with
              | false =>
                rw [execute_command, if_neg Bool.false_ne_true,
                  exec_bit_outside (by simpa using hact)] at h
                cases h
              | true =>
                cases hc : schemeOfCode s.scheme with
                | some sc =>
                  rw [execute_command, if_neg Bool.false_ne_true, exec_bit_inside (sc := sc)
                    (by simpa using hact) (by simpa using schemeOfCode_eq_some.mp hc)] at h
                  cases h
                | none =>
                  rw [execute_command, if_neg Bool.false_ne_true,
                    exec_bit_unassigned (by simpa using hact) (by simpa using hc)] at h
                  cases h
                  exact .inr ⟨rfl, hs, i, d, rfl, ha, hd, rfl, rfl⟩
            · rw [execute_command, if_neg Bool.false_ne_true, exec_startInstr] at h
              cases h

end Sys2Proof.Machine
end

