-- ==== Sys2Proof/Laws/Run.lean ====
section
/-! SUPPORT. Runs one step at a time, what every step does to the stimulus and the trace, and how the
observation of a trace grows. -/

namespace Sys2Proof.Machine

@[simp] theorem run_zero (s : State) : run 0 s = .next s := rfl

/-- A first step and a run after it are a run. -/
theorem run_succ_of_step {k : Nat} {s u : State} (h : step s = .next u) : run (k + 1) s = run k u := by
  have h' : Sys2Proof.core.step s = .next u := h
  simp only [run, Host.Core.run, h']
  rfl

/-- A run of `k + 1` steps that answers a state is one step and a run of `k`. -/
theorem run_succ_eq_next {k : Nat} {s t : State} :
    run (k + 1) s = .next t ↔ ∃ u, step s = .next u ∧ run k u = .next t := by
  constructor
  · intro h
    cases hs : step s with
    | next u => exact ⟨u, rfl, by rw [← run_succ_of_step hs, h]⟩
    | fault r => cases r
    | refused r =>
      have h' : Sys2Proof.core.step s = .refused r := hs
      simp [run, Host.Core.run, h'] at h
  · rintro ⟨u, hs, h⟩
    rw [run_succ_of_step hs, h]

/-- The entry a step adds to the trace. -/
def stepEntry (s : State) : TraceEntry :=
  match nextEvent s with
  | .cycle i => .edge i (outputs s i)
  | .clockStop => .clockStopped

/-- Every step takes its event from the stimulus and adds one entry to the trace. -/
theorem step_bookkeeping {s t : State} (h : step s = .next t) :
    t.stimulus = s.stimulus.tail ∧ t.trace = s.trace ++ [stepEntry s] := by
  rcases step_next_cases h with ⟨he, rfl⟩ | ⟨i, he, ⟨_, rfl⟩ | ⟨_, _, _, _, rfl⟩ | ⟨_, _, _, rfl⟩ |
    ⟨_, _, _, h⟩⟩
  · simp [stepEntry, he]
  · simp [stepEntry, he]
  · simp [stepEntry, he]
  · simp [stepEntry, he]
  · rcases execute_next_cases h with ⟨sc, _, rfl⟩ | ⟨d, sc, _, _, _, rfl⟩ | ⟨e, _, rfl⟩ <;>
      simp [stepEntry, he]

@[simp] theorem opensFrame_startInstr (sc : Scheme) : opensFrame (startInstr sc) = some sc := by
  cases sc <;> rfl

@[simp] theorem wordOpens_startInstr (sc : Scheme) : wordOpens (encode (startInstr sc)) = some sc := by
  simp [wordOpens]

@[simp] theorem wordOpens_bit (d : Bit1) : wordOpens (encode (.bit d)) = none := by
  simp [wordOpens, opensFrame]

@[simp] theorem wordBit_bit (d : Bit1) : wordBit (encode (.bit d)) = some d := by simp [wordBit]

/-- Cycles that are no reset edge join the run in progress. -/
theorem sinceReset_append {a b : List TraceEntry} (h : b.all TraceEntry.quiet = true) :
    sinceReset (a ++ b) = sinceReset a ++ b := by
  have alone : sinceReset b = b := by
    cases b with
    | nil => rfl
    | cons e es =>
      simp only [List.all_cons, Bool.and_eq_true] at h
      simp [sinceReset, h.1, h.2]
  induction a with
  | nil => exact alone
  | cons e es ih =>
    simp only [List.cons_append, sinceReset, List.all_append, h, Bool.and_true]
    split
    · split <;> rfl
    · exact ih

/-- Cycles that accept and deliver nothing show nothing. -/
theorem splitFrames_append {a b : List TraceEntry} (ha : acceptedWords b = [])
    (hd : deliveredSamples b = []) : splitFrames (a ++ b) = splitFrames a := by
  have alone : splitFrames b = ([], []) := by
    induction b with
    | nil => rfl
    | cons e es ih =>
      cases h1 : e.accepted with
      | some w => simp [acceptedWords, h1] at ha
      | none =>
        cases h2 : e.delivered with
        | some x => simp [deliveredSamples, h2] at hd
        | none =>
          have := ih (by simpa [acceptedWords, h1] using ha) (by simpa [deliveredSamples, h2] using hd)
          simp [splitFrames, h1, h2, this]
  induction a with
  | nil => exact alone
  | cons e es ih => simp only [List.cons_append, splitFrames, ih]

end Sys2Proof.Machine
end

