-- ==== Sys2Proof/Tests/Slice0.lean ====
section
/-! SUPPORT. Tests: the checks of WellFormed, the decoder on words written out from spec/30_encoding.md, one
small fact or two per command taken from the vectors of spec/95_test_vectors.md, and for every statement
with hypotheses a concrete state that meets them. -/

namespace Sys2Proof.Tests

open Sys2Proof Sys2Proof.Machine

/-! ### Helpers -/

/-- Whether an outcome is a next state of which a check holds. -/
def nextIs (o : Host.Outcome State Fault Refusal) (p : State → Bool) : Bool :=
  match o with
  | .next t => p t
  | _ => false

/-- A frame of a code is open, with an empty queue. -/
def openState (code : SchemeCode) (pol : Bit1) : State :=
  { State.reset with scheme := code, pol := pol, active := true }

/-- The same with one queued sample. -/
def oneQueued (code : SchemeCode) (pol : Bit1) (w : SampleWord) : State :=
  { openState code pol with qcnt := 1#2, q0 := w }

/-- A Manchester frame with the pair of a 1 queued. -/
def pairQueued : State := { openState 4#4 0#1 with qcnt := 2#2, q0 := 0b010#3, q1 := 0b111#3 }

/-- The inputs of a cycle: `cmd_valid`, `cmd`, `out_ready`, no reset. -/
def cyc (v : Bool) (w : CmdWord) (r : Bool) : Inputs := ⟨false, v, w, r⟩

/-- A state whose host will drive one cycle. -/
def State.drive (s : State) (i : Inputs) : State := { s with stimulus := [.cycle i] }

/-- The registers `ACTIVE SCHEME POL QCNT ERR` as the vectors of 95_test_vectors.md print them. -/
def regs (s : State) : Bool × Nat × Nat × Nat × Nat :=
  (s.active, s.scheme.toNat, s.pol.toNat, s.qcnt.toNat, s.err.toNat)

/-! ### The checks of WellFormed refuse ill-formed lines -/

theorem test_wf_raw_word_too_wide : (AsmLine.raw 0x20).wf = false := by decide
theorem test_wf_raw_word_widest : (AsmLine.raw 0x1F).wf = true := by decide
theorem test_wf_encode_empty : (AsmLine.encode .ami []).wf = false := by decide
theorem test_wf_encode_not_binary : (AsmLine.encode .ami ['0', '2']).wf = false := by decide
theorem test_wf_compare_empty : (AsmLine.compare []).wf = false := by decide
theorem test_wf_compare_not_binary : (AsmLine.compare ['1', 'x']).wf = false := by decide
theorem test_wf_encode_binary : (AsmLine.encode .ami ['1', '0']).wf = true := by decide
theorem test_wf_start_and_bit : (AsmLine.start .rz).wf = true ∧ (AsmLine.bit 1#1).wf = true := by decide
theorem test_wf_instr : (Instr.bit 1#1).wf = true ∧ Instr.startHdb3.wf = true := by decide

/-! ### The decoder, on words written out from R71, R72 and the map R77 -/

theorem test_decode_bit0 : decode 0b0_000_0#5 = .command (.bit 0#1) := by decide
theorem test_decode_bit1 : decode 0b0_000_1#5 = .command (.bit 1#1) := by decide
theorem test_decode_startUnipolar : decode 0b1_0000#5 = .command .startUnipolar := by decide
theorem test_decode_startNrzl : decode 0b1_0001#5 = .command .startNrzl := by decide
theorem test_decode_startNrzi : decode 0b1_0010#5 = .command .startNrzi := by decide
theorem test_decode_startRz : decode 0b1_0011#5 = .command .startRz := by decide
theorem test_decode_startManchester : decode 0b1_0100#5 = .command .startManchester := by decide
theorem test_decode_startDiffManchester : decode 0b1_0101#5 = .command .startDiffManchester := by decide
theorem test_decode_startAmi : decode 0b1_0110#5 = .command .startAmi := by decide
theorem test_decode_startB8zs : decode 0b1_0111#5 = .command .startB8zs := by decide
theorem test_decode_startHdb3 : decode 0b1_1000#5 = .command .startHdb3 := by decide
theorem test_decode_unknown_scheme :
    decode 0b1_1001#5 = .error .unknownScheme ∧ decode 0b1_1111#5 = .error .unknownScheme := by decide
theorem test_decode_illegal :
    decode 0b0_001_0#5 = .error .illegalCommand ∧ decode 0b0_111_1#5 = .error .illegalCommand := by decide
theorem test_decode_table_word :
    decodeTableWord 8 0x16 = some .startAmi ∧ decodeTableWord 5 0x01 = some (.bit 1#1) ∧
      decodeTableWord 8 0x19 = none ∧ decodeTableWord 8 0x02 = none ∧ decodeTableWord 8 0x36 = none := by
  decide

/-! ### Parameters (R7) -/

theorem test_parameters :
    Config.numSchemes = allSchemes.length ∧ CmdWord = BitVec Config.cmdWidth ∧
      SchemeCode = BitVec Config.schemeWidth ∧ LevelCode = BitVec Config.levelWidth ∧
      ErrCode = BitVec Config.errWidth ∧ Bit1 = BitVec Config.polWidth ∧ pairQueued.queue.length =
      Config.queueDepth := ⟨rfl, rfl, rfl, rfl, rfl, rfl, rfl⟩

/-! ### The commands (95_test_vectors.md sections 2 and 3) -/

/-- Section 2, the word placed after reset. -/
def afterReset (w : Nat) (r : Bool × Nat × Nat × Nat × Nat) : Bool :=
  nextIs (step (State.reset.withFetchWord 8 w)) fun t => regs t == r && t.queue.isEmpty

theorem test_startUnipolar : afterReset 0x10 (true, 0, 0, 0, 0) = true := by decide
theorem test_startNrzl : afterReset 0x11 (true, 1, 0, 0, 0) = true := by decide
theorem test_startNrzi : afterReset 0x12 (true, 2, 0, 0, 0) = true := by decide
theorem test_startRz : afterReset 0x13 (true, 3, 0, 0, 0) = true := by decide
theorem test_startManchester : afterReset 0x14 (true, 4, 0, 0, 0) = true := by decide
theorem test_startDiffManchester : afterReset 0x15 (true, 5, 0, 0, 0) = true := by decide
theorem test_startAmi : afterReset 0x16 (true, 6, 1, 0, 0) = true := by decide
theorem test_startB8zs : afterReset 0x17 (true, 7, 1, 0, 0) = true := by decide
theorem test_startHdb3 : afterReset 0x18 (true, 8, 1, 0, 0) = true := by decide
theorem test_unknown_scheme : afterReset 0x19 (false, 0, 0, 0, 1) = true := by decide
theorem test_illegal_before_outside : afterReset 0x0F (false, 0, 0, 0, 2) = true := by decide
theorem test_bit_outside_frame : afterReset 0x00 (false, 0, 0, 0, 3) = true := by decide

/-- Section 2: a START keeps the first error and reseeds `POL`. -/
theorem test_start_keeps_err :
    nextIs (exec .startNrzi { openState 6#4 1#1 with err := 3#2 }) (fun t => regs t == (true, 2, 0, 0, 3)) =
      true := by decide

/-- Section 2: the second error is not recorded (last row). -/
theorem test_first_error_kept :
    nextIs (exec (.bit 1#1) { State.reset with scheme := 4#4, err := 1#2 })
      (fun t => regs t == (false, 4, 0, 0, 1)) = true := by decide

/-- A BIT's queue and the `POL` after it. -/
def bitGives (code : SchemeCode) (pol d : Bit1) (q : List SampleWord) (pol' : Bit1) : Bool :=
  nextIs (exec (.bit d) (openState code pol)) fun t => t.queue == q && t.pol == pol'

theorem test_bit_unipolar : bitGives 0#4 0#1 0#1 [0b000#3] 0#1 = true := by decide
theorem test_bit_nrzl : bitGives 1#4 0#1 0#1 [0b110#3] 0#1 = true := by decide
theorem test_bit_nrzi : bitGives 2#4 0#1 1#1 [0b110#3] 1#1 = true := by decide
theorem test_bit_rz : bitGives 3#4 0#1 0#1 [0b110#3, 0b001#3] 0#1 = true := by decide
theorem test_bit_manchester : bitGives 4#4 0#1 1#1 [0b010#3, 0b111#3] 0#1 = true := by decide
theorem test_bit_diffManchester : bitGives 5#4 0#1 0#1 [0b110#3, 0b011#3] 1#1 = true := by decide
theorem test_bit_ami : bitGives 6#4 1#1 1#1 [0b010#3] 0#1 = true := by decide
theorem test_bit_b8zs : bitGives 7#4 0#1 1#1 [0b110#3] 1#1 = true := by decide
theorem test_bit_hdb3 : bitGives 8#4 0#1 0#1 [0b000#3] 0#1 = true := by decide

/-- The document's own examples S3 to S6 and S8. -/
theorem test_document_examples :
    lineLevels .nrzi [0#1] = [.pos] ∧ lineLevels .nrzi [1#1] = [.neg] ∧
      lineLevels .manchester [1#1, 0#1] = [.pos, .neg, .neg, .pos] ∧
      lineLevels .ami [1#1, 0#1, 1#1, 1#1] = [.pos, .zero, .neg, .pos] ∧
      lineLevels .diffManchester [0#1, 0#1] = [.neg, .pos, .pos, .neg] := by decide

/-- Section 4: a dual-sample bit refuses while full; one sample is delivered. -/
theorem test_full_queue_refuses :
    nextIs (step (State.drive pairQueued (cyc true 0x01#5 true)))
      (fun t => regs t == (true, 4, 0, 1, 0) && t.q0 == 0b111#3 && t.q1 == 0b111#3) = true := by decide

/-- Section 4: pass-through acceptance in an NRZ-L frame. -/
theorem test_pass_through :
    nextIs (step (State.drive (oneQueued 1#4 0#1 0b110#3) (cyc true 0x01#5 true)))
      (fun t => regs t == (true, 1, 0, 1, 0) && t.q0 == 0b010#3 &&
        deliveredSamples t.trace == [0b110#3]) = true := by decide

/-- Section 4: a stall changes nothing. -/
theorem test_stall :
    nextIs (step (State.drive (oneQueued 1#4 0#1 0b110#3) (cyc true 0x01#5 false)))
      (fun t => regs t == (true, 1, 0, 1, 0) && acceptedWords t.trace == []) = true := by decide

/-- Section 4: a reset edge ignores a handshake and drops an offered sample. -/
theorem test_reset_edge :
    nextIs (step (State.drive { pairQueued with err := 2#2 } ⟨true, true, 0x10#5, true⟩))
      (fun t => regs t == (false, 0, 0, 0, 0) && deliveredSamples t.trace == [] &&
        acceptedWords t.trace == []) = true := by decide

/-! ### The assembler (R81 to R83, 95_test_vectors.md P3) -/

theorem test_assemble_line :
    parseLine ['.', 'c', 'm', 'd', ' ', '0', 'x', '1', 'B', ' ', ';', 'x'] = .ok (some (.raw 0x1B)) := by
  decide
theorem test_assemble_unknown_name :
    parseLine ['S', 'T', 'A', 'R', 'T', ' ', 'F', 'O', 'O'] = .error .unknownSchemeName := by decide
theorem test_assemble_encode :
    assembleText (['e', 'n', 'c', 'o', 'd', 'e', ' ', 'r', 'z', ',', ' ', '"', '1', '0', '"', '\n'] ++
      ['B', 'I', 'T', ' ', '1']) = .ok [0x13#5, 0x01#5, 0x00#5, 0x01#5] := by decide
theorem test_assemble_invalid_input :
    assembleText ['C', 'O', 'M', 'P', 'A', 'R', 'E', ' ', '"', '2', '"'] = .error .invalidInput := by decide

/-! ### Power-up -/

theorem test_power_up : (State.powerUp []).resetSeen = false ∧ (State.powerUp []).draws = 1 := ⟨rfl, rfl⟩

/-! ### Witnesses: states and operands that meet the hypotheses of each statement -/

theorem witness_BitFollowsTheSymbolMap_outside : State.reset.active = false := rfl
theorem witness_BitFollowsTheSymbolMap_words :
    (0x02 ≤ (0x02#5).toNat ∧ (0x02#5).toNat ≤ 0x0F) ∧ (0x02 ≤ (0x0F#5).toNat ∧ (0x0F#5).toNat ≤ 0x0F) := by
  decide
theorem witness_BitFollowsTheSymbolMap_single :
    (openState 0#4 0#1).active = true ∧ (openState 0#4 0#1).scheme = Scheme.unipolar.code ∧
      symbolMap .unipolar 1#1 (polVal (openState 0#4 0#1).pol) = ⟨.single .pos, .plus⟩ := by decide
theorem witness_BitFollowsTheSymbolMap_pair :
    (openState 5#4 1#1).active = true ∧ (openState 5#4 1#1).scheme = Scheme.diffManchester.code ∧
      symbolMap .diffManchester 0#1 (polVal (openState 5#4 1#1).pol) = ⟨.pair .pos .neg, .plus⟩ := by decide
theorem witness_BitUnderUnassignedCodeRefused :
    (openState 9#4 0#1).active = true ∧ 8#4 < (openState 9#4 0#1).scheme := by decide
theorem witness_BitUnderEachScheme (c : SchemeCode) :
    (openState c 1#1).active = true ∧ (openState c 1#1).scheme = c := ⟨rfl, rfl⟩
theorem witness_DiffManchesterCarriesTheFirstHalf :
    ∃ t : State, exec (.bit 0#1) (openState 5#4 0#1) = .next t ∧ (openState 5#4 0#1).active = true ∧
      (openState 5#4 0#1).scheme = 5#4 ∧
      ({ t with qcnt := 0#2 } : State).active = t.active ∧ ({ t with qcnt := 0#2 } : State).scheme = t.scheme ∧
      ({ t with qcnt := 0#2 } : State).pol = t.pol := ⟨_, rfl, rfl, rfl, rfl, rfl, rfl⟩
theorem witness_SamplesPerBitAndPhases :
    (openState 8#4 0#1).active = true ∧ (openState 8#4 0#1).scheme = Scheme.hdb3.code ∧
      stateless .rz = true := by decide
theorem witness_OutputPort_offered :
    (outputs pairQueued (cyc false 0#5 false)).outValid = true ∧
      (outputs State.reset (cyc false 0#5 false)).outValid = false := by decide
theorem witness_OutputPort_stalled :
    ∃ t, step (State.drive pairQueued (cyc true 0x01#5 false)) = .next t ∧
      nextEvent (State.drive pairQueued (cyc true 0x01#5 false)) = .cycle (cyc true 0x01#5 false) ∧
      (outputs (State.drive pairQueued (cyc true 0x01#5 false)) (cyc true 0x01#5 false)).outValid = true ∧
      (cyc true 0x01#5 false).outReady = false ∧ (cyc false 0#5 true).rst = false :=
  ⟨_, rfl, rfl, rfl, rfl, rfl⟩
theorem witness_OutputPort_withdrawn :
    ∃ t, step (State.drive pairQueued ⟨true, true, 0x01#5, true⟩) = .next t ∧
      nextEvent (State.drive pairQueued ⟨true, true, 0x01#5, true⟩) = .cycle ⟨true, true, 0x01#5, true⟩ :=
  ⟨_, rfl, rfl⟩

/-- A word accepted at the edge where the last queued sample leaves: the boundary case of R92. -/
theorem witness_StepRunsTheAcceptedCommand :
    (State.drive (oneQueued 4#4 0#1 0b111#3) (cyc true 0x16#5 true)).resetSeen = true ∧
      (cyc true 0x16#5 true).rst = false ∧ (cyc true 0x16#5 true).cmdValid = true ∧
      (outputs (State.drive (oneQueued 4#4 0#1 0b111#3) (cyc true 0x16#5 true))
        (cyc true 0x16#5 true)).cmdReady = true ∧
      decode (cyc true 0x16#5 true).cmd = .command .startAmi ∧ decode 0x1F#5 = .error .unknownScheme := by
  decide
theorem witness_StepRunsThePlacedWord : decode 0x01#5 = .command (.bit 1#1) := by decide
theorem witness_ResetEdge :
    (State.drive pairQueued ⟨true, true, 0x10#5, true⟩).stimulus = .cycle ⟨true, true, 0x10#5, true⟩ :: [] ∧
      (⟨true, true, 0x10#5, true⟩ : Inputs).rst = true := by decide
theorem witness_StateAfterReset :
    (cyc true 0x01#5 true).rst = false ∧ (cyc true 0x01#5 true).cmdValid = true ∧
      (cyc true 0x01#5 true).cmd = encode (.bit 1#1) := by decide
theorem witness_DeliveryPopsTheQueue_two :
    let s := State.drive pairQueued (cyc true 0x01#5 true)
    s.resetSeen = true ∧ (outputs s (cyc true 0x01#5 true)).outValid = true ∧ s.qcnt = 2#2 ∧
      ¬((cyc true 0x01#5 true).cmdValid = true ∧ (outputs s (cyc true 0x01#5 true)).cmdReady = true) := by
  decide
theorem witness_DeliveryPopsTheQueue_one :
    let s := State.drive (oneQueued 1#4 0#1 0b010#3) (cyc false 0#5 true)
    s.resetSeen = true ∧ (outputs s (cyc false 0#5 true)).outValid = true ∧ s.qcnt = 1#2 ∧
      ¬((cyc false 0#5 true).cmdValid = true ∧ (outputs s (cyc false 0#5 true)).cmdReady = true) := by decide
theorem witness_DeliveryPopsTheQueue_accepting :
    let s := State.drive (oneQueued 1#4 0#1 0b010#3) (cyc true 0x01#5 true)
    s.resetSeen = true ∧ (outputs s (cyc true 0x01#5 true)).outValid = true ∧ s.qcnt ≠ 2#2 ∧
      ((cyc true 0x01#5 true).cmdValid = true ∧ (outputs s (cyc true 0x01#5 true)).cmdReady = true) ∧
      decode (cyc true 0x01#5 true).cmd = .command (.bit 1#1) ∧ decode 0x02#5 = .error .illegalCommand := by
  decide
theorem witness_NothingHappensWithoutAHandshake :
    let s := State.drive pairQueued (cyc true 0x01#5 false)
    s.resetSeen = true ∧
      ¬((cyc true 0x01#5 false).cmdValid = true ∧ (outputs s (cyc true 0x01#5 false)).cmdReady = true) ∧
      ¬((outputs s (cyc true 0x01#5 false)).outValid = true ∧ (cyc true 0x01#5 false).outReady = true) := by
  decide
theorem witness_WordNotAcceptedHasNoEffect :
    pairQueued.resetSeen = true ∧ (outputs pairQueued (cyc true 0x10#5 true)).cmdReady = false := by decide
theorem witness_WordNotAcceptedHasNoEffect_dual :
    ∃ t, exec (.bit 1#1) (openState 4#4 0#1) = .next t ∧ (openState 4#4 0#1).active = true ∧
      (openState 4#4 0#1).scheme = Scheme.manchester.code ∧ samplesPerBit .manchester = 2 :=
  ⟨_, rfl, rfl, rfl, rfl⟩
theorem witness_EveryCommandMeetsAnEmptyQueue :
    (cyc true 0x01#5 true).cmdValid = true ∧
      (outputs (oneQueued 1#4 0#1 0b010#3) (cyc true 0x01#5 true)).cmdReady = true ∧
      (oneQueued 1#4 0#1 0b010#3).active = true ∧
      nextIs (exec (.bit 1#1) ((oneQueued 1#4 0#1 0b010#3).afterDelivery (cyc true 0x01#5 true)))
        (fun _ => true) = true := by decide

/-- A state of an open NRZ-L frame with one sample of a 1 queued meets the invariant. -/
theorem witness_wellFormed_one : (oneQueued 1#4 0#1 0b010#3).WellFormed where
  queueCount := by decide
  legalLevels := by decide
  twoEntries := fun h => absurd h (by decide)
  oneEntry := fun _ => ⟨.nrzl, 1#1, .plus, rfl, .inl ⟨.pos, rfl, rfl⟩⟩
  activeScheme := by decide
  scheme := by decide

/-- The Manchester state with a pair queued meets it. -/
theorem witness_wellFormed_two : pairQueued.WellFormed where
  queueCount := by decide
  legalLevels := by decide
  twoEntries := fun _ => ⟨rfl, rfl, .manchester, 1#1, .plus, .pos, .neg, rfl, rfl, rfl, rfl⟩
  oneEntry := fun h => absurd h (by decide)
  activeScheme := by decide
  scheme := by decide

/-- The invariant does not look at the stimulus. -/
theorem wellFormed_drive {s : State} (h : s.WellFormed) (i : Inputs) : (State.drive s i).WellFormed :=
  ⟨h.queueCount, h.legalLevels, h.twoEntries, h.oneEntry, h.activeScheme, h.scheme⟩

theorem witness_StepKeepsTheInvariant :
    ∃ t, (State.drive pairQueued (cyc true 0x01#5 true)).Inv ∧
      step (State.drive pairQueued (cyc true 0x01#5 true)) = .next t :=
  ⟨_, fun _ => wellFormed_drive witness_wellFormed_two _, rfl⟩
theorem witness_SamplesAreConservedInOrder :
    ∃ t, (State.drive (oneQueued 1#4 0#1 0b010#3) (cyc true 0x00#5 true)).Inv ∧
      (State.drive (oneQueued 1#4 0#1 0b010#3) (cyc true 0x00#5 true)).resetSeen = true ∧
      nextEvent (State.drive (oneQueued 1#4 0#1 0b010#3) (cyc true 0x00#5 true)) =
        .cycle (cyc true 0x00#5 true) ∧
      step (State.drive (oneQueued 1#4 0#1 0b010#3) (cyc true 0x00#5 true)) = .next t :=
  ⟨_, fun _ => wellFormed_drive witness_wellFormed_one _, rfl, rfl, rfl⟩
theorem witness_TheBlockNeverStops :
    pairQueued.Inv ∧ pairQueued.resetSeen = true ∧ HostEvent.clockStop ∉ [HostEvent.cycle (cyc true 0#5 true)] :=
  ⟨fun _ => witness_wellFormed_two, rfl, by decide⟩
theorem witness_ReachableStatesAreWellFormed :
    ∃ t, run 2 (State.resetWith [offerWord 0x14#5, offerWord 0x01#5]) = .next t ∧ t.qcnt = 2#2 :=
  ⟨_, rfl, rfl⟩

/-- A state before the first reset edge. -/
def unreset : State := { pairQueued with resetSeen := false }

theorem witness_HandshakeBeforeResetRefused :
    (State.drive unreset (cyc true 0#5 false)).resetSeen = false ∧
      nextEvent (State.drive unreset (cyc true 0#5 false)) = .cycle (cyc true 0#5 false) ∧
      (outputs unreset (cyc false 0#5 true)).outValid = true ∧ (cyc false 0#5 false).cmdValid = false := by
  decide
theorem witness_ClockStopLosesTheRegisters :
    ({ State.reset with stimulus := [.clockStop] } : State).stimulus = .clockStop :: [] := rfl
theorem witness_AcceptedErrorTakesTheErrorAction :
    let s := State.drive (oneQueued 4#4 0#1 0b111#3) (cyc true 0x19#5 true)
    s.resetSeen = true ∧ (outputs s (cyc true 0x19#5 true)).cmdReady = true ∧ 0x19 ≤ (0x19#5).toNat ∧
      (0x02 ≤ (0x02#5).toNat ∧ (0x0F#5).toNat ≤ 0x0F) ∧
      ((0x01#5).toNat ≤ 0x01 ∧ State.reset.active = false) := by decide
theorem witness_AtMostOneErrorPerCommand :
    ErrorCause State.reset 0x1F#5 .unknownScheme ∧ ErrorCause pairQueued 0x0F#5 .illegalCommand ∧
      ErrorCause State.reset 0x01#5 .bitOutsideFrame ∧ decode 0x02#5 = .error .illegalCommand :=
  ⟨by unfold ErrorCause; decide, by unfold ErrorCause; decide, by unfold ErrorCause; decide, by decide⟩

/-- A START of another scheme at the edge that takes the last sample: `SCHEME` and `POL` change. -/
theorem witness_OnlyStartWritesScheme :
    ∃ t, step (State.drive (oneQueued 4#4 0#1 0b111#3) (cyc true 0x16#5 true)) = .next t ∧
      nextEvent (State.drive (oneQueued 4#4 0#1 0b111#3) (cyc true 0x16#5 true)) =
        .cycle (cyc true 0x16#5 true) ∧ t.scheme ≠ 4#4 ∧ t.pol ≠ 0#1 :=
  ⟨_, rfl, rfl, by decide, by decide⟩

/-- A 1 under NRZ-I changes `POL` by an inversion and fills the queue. -/
theorem witness_PolIsSeededOrInverted :
    ∃ t, step (State.drive (openState 2#4 0#1) (cyc true 0x01#5 false)) = .next t ∧ t.pol ≠ 0#1 ∧
      t.qcnt ≠ 0#2 := ⟨_, rfl, by decide, by decide⟩

/-- An error in an open frame clears `ACTIVE` and writes `ERR`. -/
theorem witness_ErrKeepsTheFirstError :
    ∃ t, step (State.drive (openState 2#4 0#1) (cyc true 0x1F#5 false)) = .next t ∧ t.err ≠ 0#2 ∧
      t.active = false ∧ t.qcnt = 0#2 := ⟨_, rfl, by decide, rfl, rfl⟩
theorem witness_ErrKeepsTheFirstError_kept :
    ∃ t, step (State.drive { openState 2#4 0#1 with err := 2#2 } (cyc true 0x1F#5 false)) = .next t ∧
      t.err = 2#2 := ⟨_, rfl, rfl⟩

/-- A START sets `ACTIVE`. -/
theorem witness_ActiveIsSetByStartAndClearedByErrors :
    ∃ t, step (State.drive State.reset (cyc true 0x10#5 false)) = .next t ∧ t.active = true := ⟨_, rfl, rfl⟩
theorem witness_StaleEntriesAreNotObservable :
    SameLive (openState 2#4 0#1) { openState 2#4 0#1 with q0 := 0b111#3, q1 := 0b010#3 } :=
  ⟨rfl, rfl, rfl, rfl, rfl, rfl, rfl, rfl, rfl, rfl⟩
theorem witness_UnreadPolIsNotObservable :
    SameButUnreadPol (openState 1#4 0#1) (openState 1#4 1#1) :=
  ⟨rfl, .inr (.inr fun sc h => by cases sc <;> first | rfl | cases h)⟩

/-- The state a run ends in. -/
def after (k : Nat) (s : State) : State :=
  match run k s with
  | .next t => t
  | _ => s

/-- A host that sends a frame of one 1 and one 0, waits, and takes every sample. -/
def frameHost (sc : Scheme) : State :=
  State.resetWith [offerWord (encode (startInstr sc)), offerWord 0x01#5, takeOnly, offerWord 0x00#5,
    takeOnly, takeOnly]

/-- Its trace after START. -/
def frameRest (sc : Scheme) : List TraceEntry := (after 6 (frameHost sc)).trace.tail

/-- What the port shows while START is accepted. -/
def frameOpening (sc : Scheme) : TraceEntry :=
  .edge ⟨false, true, encode (startInstr sc), true⟩ ⟨true, false, 0#2, 0#1, false, 0#4, 0#2, false⟩

theorem witness_FrameDeliversTheLineCode (sc : Scheme) :
    FrameRun sc [1#1, 0#1] 6 (frameHost sc) (after 6 (frameHost sc)) (frameOpening sc) (frameRest sc) ∧
      (after 6 (frameHost sc)).qcnt = 0#2 := by
  refine ⟨⟨?_, ?_, ?_, ?_, ?_⟩, ?_⟩ <;> cases sc <;> first | rfl | decide

theorem witness_EmptyFrameIsSilent :
    FrameRun .rz [] 1 (State.resetWith [offerWord 0x13#5])
      (after 1 (State.resetWith [offerWord 0x13#5])) (frameOpening .rz) [] :=
  ⟨rfl, rfl, rfl, by decide, rfl⟩
theorem witness_StartEndsTheOpenFrame :
    let s := State.drive (oneQueued 4#4 0#1 0b111#3) (cyc true 0x15#5 true)
    s.resetSeen = true ∧ s.active = true ∧ (outputs s (cyc true 0x15#5 true)).cmdReady = true ∧
      (cyc true 0x15#5 true).cmd = encode (startInstr .diffManchester) := by decide
theorem witness_SingleSampleFrameTiming :
    samplesPerBit .ami = 1 ∧ (State.resetWith (backToBack (frameWords .ami [1#1]) ++ [])).qcnt = 0#2 ∧
      (State.resetWith (backToBack (frameWords .ami [1#1]) ++ [])).resetSeen = true := by decide
/-- A host that keeps offering the next BIT, and offers nothing after the last one. -/
theorem witness_DualSampleFrameTiming :
    samplesPerBit .rz = 2 ∧ [1#1, 0#1] = [(1#1, true, 0x00#5), (0#1, false, 0x1F#5)].map Prod.fst ∧
      (State.resetWith (everySecondCycle (encode (startInstr .rz))
        ([(1#1, true, 0x00#5), (0#1, false, 0x1F#5)].map fun (x : Bit1 × Bool × CmdWord) =>
          (encode (.bit x.1), .cycle ⟨false, x.2.1, x.2.2, true⟩)) ++ [])).qcnt = 0#2 := by decide

/-- A host that sends an AMI frame of one 1, then an empty RZ frame, and then an error word. -/
def twoFrames : List HostEvent := [offerWord 0x16#5, offerWord 0x01#5, offerWord 0x13#5, offerWord 0x1F#5]

/-- The sample delivered at the edge that accepts the second START belongs to the first frame, as in program
P4 of 95_test_vectors.md. -/
theorem test_observation_splits_frames :
    (after 4 (State.resetWith twoFrames)).observation =
      ⟨[], [⟨.ami, [0b010#3]⟩, ⟨.rz, []⟩], 1#2, false, 3#4⟩ := by decide

theorem witness_RunsShowTheFramesSent :
    (∀ e ∈ twoFrames, ∃ i, e = HostEvent.cycle i ∧ i.rst = false) ∧
      run 4 (State.resetWith twoFrames) = .next (after 4 (State.resetWith twoFrames)) ∧
      (after 4 (State.resetWith twoFrames)).qcnt = 0#2 ∧
      (∀ e ∈ takeOnly :: twoFrames, ∃ i, e = HostEvent.cycle i ∧ i.rst = false) ∧
      run 5 (State.resetWith (takeOnly :: twoFrames)) =
        .next (after 5 (State.resetWith (takeOnly :: twoFrames))) ∧
      (after 5 (State.resetWith (takeOnly :: twoFrames))).qcnt = 0#2 ∧
      acceptedWords (after 4 (State.resetWith twoFrames)).trace =
        acceptedWords (after 5 (State.resetWith (takeOnly :: twoFrames))).trace := by
  refine ⟨?_, rfl, rfl, ?_, rfl, rfl, rfl⟩ <;> simp [twoFrames, offerWord, takeOnly]
theorem witness_TheQueueDrains :
    ({ pairQueued with stimulus := [takeOnly, takeOnly] } : State).Inv ∧
      ({ pairQueued with stimulus := [takeOnly, takeOnly] } : State).resetSeen = true :=
  ⟨fun _ => ⟨by decide, by decide, witness_wellFormed_two.twoEntries, fun h => absurd h (by decide),
    by decide, by decide⟩, rfl⟩
theorem witness_AnEndedRunStaysEnded :
    ∃ t, State.reset.runEnded ∧ State.reset.resetSeen = true ∧ run 2 State.reset = .next t :=
  ⟨_, ⟨rfl, fun _ h => by cases h⟩, rfl, rfl⟩
theorem witness_PseudoInstructions :
    validBits ['1', '0'] = true ∧ validBits [] = false ∧ validBits ['a'] = false := by decide
theorem witness_AssemblerCommands : 0x1F ≤ 0x1F ∧ 0x1F < 0x20 := by decide

end Sys2Proof.Tests
end

section
/-! SUPPORT. The level codes of spec/00_scope.md R9 and the levels each group of schemes emits. -/

namespace Sys2Proof.Machine

/-! ### enc and dec -/

/-- `dec` undoes `enc` (R9). -/
@[simp] theorem dec_enc (l : Level) : dec (enc l) = some l := by cases l <;> rfl

/-- The code `2'b10` is never produced (R9). -/
theorem enc_ne_illegal (l : Level) : enc l ≠ 0b10#2 := by cases l <;> decide

/-- A level code read as two's complement is the level (R9). -/
@[simp] theorem toInt_enc (l : Level) : (enc l).toInt = levelInt l := by cases l <;> rfl

/-! ### The levels a scheme emits -/

theorem exists_bit1 {P : Bit1 → Prop} : (∃ d, P d) ↔ P 0#1 ∨ P 1#1 := by
  constructor
  · rintro ⟨d, h⟩
    rcases bit1_cases d with rfl | rfl
    · exact .inl h
    · exact .inr h
  · rintro (h | h) <;> exact ⟨_, h⟩

theorem exists_polarity {P : Polarity → Prop} : (∃ p, P p) ↔ P .plus ∨ P .minus := by
  constructor
  · rintro ⟨_ | _, h⟩
    · exact .inl h
    · exact .inr h
  · rintro (h | h) <;> exact ⟨_, h⟩

/-- The levels of a scheme, over the two bits and the two carried levels. -/
theorem emitsLevel_iff {sc : Scheme} {l : Level} : EmitsLevel sc l ↔
    ∃ d p, l ∈ (sampleList (symbolMap sc d p).samples).map Sample.level := by
  simp [EmitsLevel]

/-- Unipolar emits 0 and +1 (R9, R130). -/
theorem emitsLevel_unipolar {l : Level} : EmitsLevel .unipolar l ↔ l = .zero ∨ l = .pos := by
  simp [emitsLevel_iff, exists_bit1, exists_polarity, symbolMap, mapUnipolar, sampleList]

/-- The NRZ and Manchester families emit −1 and +1: every sample is a polarity seen as a level (R9). -/
theorem emitsLevel_bipolar {sc : Scheme} {l : Level}
    (h : sc ∈ [Scheme.nrzl, .nrzi, .manchester, .diffManchester]) :
    EmitsLevel sc l ↔ l = .neg ∨ l = .pos := by
  rw [emitsLevel_iff, exists_bit1, exists_polarity, exists_polarity]
  simp only [List.mem_cons, List.not_mem_nil, or_false] at h
  rcases h with rfl | rfl | rfl | rfl
  · simp [symbolMap, mapNrzl, sampleList]
  · cases l <;> simp [symbolMap, mapNrzi, sampleList, polLevel, negPol]
  · cases l <;> simp [symbolMap, mapManchester, sampleList, polLevel, negPol]
  · cases l <;> simp [symbolMap, mapDiffManchester, sampleList, polLevel, negPol]

/-- RZ emits all three levels: ±1 by the bit, and 0 in the second half (R9, R152). -/
theorem emitsLevel_rz (l : Level) : EmitsLevel .rz l := by
  rw [emitsLevel_iff]
  cases l with
  | neg => exact ⟨0#1, .plus, by decide⟩
  | zero => exact ⟨0#1, .plus, by decide⟩
  | pos => exact ⟨1#1, .plus, by decide⟩

/-- AMI emits all three levels: 0 for a 0, and for a 1 the opposite of the carried level (R9, R133). -/
theorem emitsLevel_ami (l : Level) : EmitsLevel .ami l := by
  rw [emitsLevel_iff]
  cases l with
  | neg => exact ⟨1#1, .plus, by decide⟩
  | zero => exact ⟨0#1, .plus, by decide⟩
  | pos => exact ⟨1#1, .minus, by decide⟩

/-- B8ZS emits what AMI emits (R134). -/
theorem emitsLevel_b8zs (l : Level) : EmitsLevel .b8zs l := emitsLevel_ami l

/-- HDB3 emits what AMI emits (R135). -/
theorem emitsLevel_hdb3 (l : Level) : EmitsLevel .hdb3 l := emitsLevel_ami l

/-! ### The obligation -/

/-- Settles O4: the code facts level by level, the level sets by the group a scheme belongs to. -/
theorem levelEncoding : Obligations.LevelEncoding := by
  refine ⟨rfl, rfl, rfl, fun l => ⟨dec_enc l, enc_ne_illegal l, toInt_enc l⟩, rfl, fun sc l => ?_⟩
  cases sc with
  | unipolar => simp [emitsLevel_unipolar]
  | nrzl | nrzi | manchester | diffManchester => simp [emitsLevel_bipolar]
  | rz => simp [emitsLevel_rz]
  | ami => simp [emitsLevel_ami]
  | b8zs => simp [emitsLevel_b8zs]
  | hdb3 => simp [emitsLevel_hdb3]

end Sys2Proof.Machine
end

section
/-! SUPPORT. The status ports, and the register `ERR`: which words have the cause of an error and what an edge
writes to `ERR` (spec/10_state.md R27, R34; spec/60_exceptions.md R170 to R175). -/

namespace Sys2Proof.Machine

/-! ### The status ports -/

@[simp] theorem outputs_statusActive (s : State) (i : Inputs) : (outputs s i).statusActive = s.active := rfl
@[simp] theorem outputs_statusScheme (s : State) (i : Inputs) : (outputs s i).statusScheme = s.scheme := rfl
@[simp] theorem outputs_statusErr (s : State) (i : Inputs) : (outputs s i).statusErr = s.err := rfl
@[simp] theorem outputs_statusBusy (s : State) (i : Inputs) : (outputs s i).statusBusy = statusBusy s := rfl

theorem statusBusy_iff {s : State} : statusBusy s = true ↔ s.qcnt ≠ 0#2 := decide_eq_true_iff

/-- Settles O23: each status port copies a register, and `status_busy` reads the queue count. -/
theorem statusOutputs : Obligations.StatusOutputs := fun s i =>
  ⟨outputs_statusActive s i, outputs_statusScheme s i, outputs_statusErr s i, statusBusy_iff⟩

/-! ### The causes of errors -/

theorem decode_eq_unknownScheme_iff (w : CmdWord) : decode w = .error .unknownScheme ↔ 0x19 ≤ w.toNat := by
  revert w; decide

theorem decode_eq_illegalCommand_iff (w : CmdWord) :
    decode w = .error .illegalCommand ↔ 0x02 ≤ w.toNat ∧ w.toNat ≤ 0x0F := by
  revert w; decide

/-- The legal BIT words are 0x00 and 0x01 (R72). -/
theorem exists_decode_eq_bit_iff (w : CmdWord) : (∃ d, decode w = .command (.bit d)) ↔ w.toNat ≤ 0x01 := by
  revert w; decide

/-- A word has the cause of an error exactly when the decoder raises that error, or it is a legal BIT and no
frame is open (R171 to R175): the words that `execute` answers with the error action. -/
theorem errorCause_iff {s : State} {w : CmdWord} {e : ErrorKind} : ErrorCause s w e ↔
    decode w = .error e ∨
      (e = .bitOutsideFrame ∧ s.active = false ∧ ∃ d, decode w = .command (.bit d)) := by
  cases e with
  | unknownScheme => simp [ErrorCause, decode_eq_unknownScheme_iff]
  | illegalCommand => simp [ErrorCause, decode_eq_illegalCommand_iff]
  | bitOutsideFrame =>
    simp [ErrorCause, exists_decode_eq_bit_iff, decode_ne_bitOutsideFrame, and_comm]

/-! ### What is written to ERR -/

@[simp] theorem firstError_zero (e : ErrorKind) : firstError 0#2 e = errorCode e := rfl

theorem firstError_of_ne_zero {c : ErrCode} (h : c ≠ 0#2) (e : ErrorKind) : firstError c e = c := if_neg h

/-- What a cycle that is no reset edge does to `ERR`: nothing, or `ERR` was 0 and takes the code of the
accepted word's error (R27, R170). -/
theorem step_err_cases {s t : State} {i : Inputs} (he : nextEvent s = .cycle i) (hr : i.rst = false)
    (h : step s = .next t) :
    t.err = s.err ∨
    (s.err = 0#2 ∧ accepts s i = true ∧ ∃ e, ErrorCause s i.cmd e ∧ t.err = errorCode e) := by
  rcases step_cycle_cases he hr h with ⟨-, rfl⟩ | ⟨-, hacc, hx⟩
  · exact .inl (by simp)
  · rcases execute_next_cases hx with ⟨sc, -, rfl⟩ | ⟨d, sc, -, -, -, rfl⟩ | ⟨e, hcause, rfl⟩
    · exact .inl (by simp)
    · exact .inl (by simp)
    · by_cases h0 : s.err = 0#2
      · exact .inr ⟨h0, hacc, e, errorCause_iff.mpr (by simpa using hcause), by simp [h0]⟩
      · exact .inl (by simp [firstError_of_ne_zero h0])

/-- Settles O37: an edge leaves `ERR` alone, or writes the accepted word's error code over 0. -/
theorem errKeepsTheFirstError : Obligations.ErrKeepsTheFirstError := by
  intro s t i he h hr
  refine ⟨fun hne => ?_, fun hch => ?_, outputs_statusErr t⟩
  · rcases step_err_cases he hr h with hkeep | ⟨h0, -⟩
    · exact hkeep
    · exact absurd h0 hne
  · rcases step_err_cases he hr h with hkeep | ⟨-, hacc, hcause⟩
    · exact absurd hkeep hch
    · obtain ⟨hv, hready⟩ := accepts_iff.mp hacc
      exact ⟨hv, hready, hcause⟩

end Sys2Proof.Machine
end

section
/-! SUPPORT. The invariant of spec/10_state.md R28: well-formed states by their queue count, each operation of
an edge, the step, and runs. -/

namespace Sys2Proof.Machine

/-! ### Well-formed states by the number of queued samples -/

/-- With an empty queue, only the scheme code matters. -/
theorem State.wellFormed_of_empty {s : State} (hq : s.qcnt = 0#2) (hs : s.scheme ≤ 8#4) : s.WellFormed where
  queueCount := by simp [hq]
  legalLevels := by simp [queue_of_qcnt_zero hq]
  twoEntries := by simp [hq]
  oneEntry := by simp [hq]
  activeScheme _ := hs
  scheme := hs

/-- One queued sample: the last one of a bit under the scheme of `SCHEME`. -/
theorem State.wellFormed_of_holdsLast {s : State} (hq : s.qcnt = 1#2) (hl : s.holdsLast) : s.WellFormed := by
  have ⟨sc, d, p, hs, hsample⟩ := hl
  have hcode : s.scheme ≤ 8#4 := hs ▸ code_le sc
  obtain ⟨x, hx⟩ : ∃ x, s.q0 = sampleWord x := by
    rcases hsample with ⟨a, -, h⟩ | ⟨a, b, -, h⟩
    · exact ⟨_, h⟩
    · exact ⟨_, h⟩
  exact {
    queueCount := by simp [hq]
    legalLevels := by simp [State.queue, hq, hx, enc_ne_illegal]
    twoEntries := by simp [hq]
    oneEntry := fun _ => hl
    activeScheme := fun _ => hcode
    scheme := hcode }

/-- Two queued samples: the pair of a bit under the scheme of `SCHEME`. -/
theorem State.wellFormed_of_holdsPair {s : State} (hq : s.qcnt = 2#2) (hp : s.holdsPair) : s.WellFormed := by
  have ⟨sc, d, p, a, b, hs, _, h0, h1⟩ := hp
  have hcode : s.scheme ≤ 8#4 := hs ▸ code_le sc
  exact {
    queueCount := by simp [hq]
    legalLevels := by simp [State.queue, hq, h0, h1, enc_ne_illegal]
    twoEntries := fun _ => ⟨by simp [h0], by simp [h1], hp⟩
    oneEntry := by simp [hq]
    activeScheme := fun _ => hcode
    scheme := hcode }

/-! ### The operations of an edge -/

/-- The invariant speaks of registers only, so the bookkeeping of a cycle keeps it. -/
theorem State.WellFormed.recordCycle {s : State} (h : s.WellFormed) (i : Inputs) :
    (s.recordCycle i).WellFormed :=
  ⟨h.queueCount, h.legalLevels, h.twoEntries, h.oneEntry, h.activeScheme, h.scheme⟩

/-- A reset edge leads to a well-formed state from any state (R35). -/
theorem State.resetRegisters_wellFormed (s : State) : s.resetRegisters.WellFormed :=
  State.wellFormed_of_empty rfl (by simp)

/-- Of a pair the second sample remains; otherwise a pop empties the queue (R95). -/
theorem State.WellFormed.popQueue {s : State} (h : s.WellFormed) : s.popQueue.WellFormed := by
  by_cases h2 : s.qcnt = 2#2
  · obtain ⟨-, -, sc, d, p, a, b, hs, hmap, -, hq1⟩ := h.twoEntries h2
    refine State.wellFormed_of_holdsLast (by simp [h2]) ⟨sc, d, p, by simpa using hs, .inr ⟨a, b, hmap, ?_⟩⟩
    simpa [h2] using hq1
  · exact State.wellFormed_of_empty (by simp [h2]) (by simpa using h.scheme)

theorem State.WellFormed.afterDelivery {s : State} (h : s.WellFormed) (i : Inputs) :
    (s.afterDelivery i).WellFormed := by
  unfold State.afterDelivery
  split
  · exact h.popQueue
  · exact h

/-- A BIT's samples are what the mapper answers for the scheme of `SCHEME` (R119, R136, R150). -/
theorem encodeBit_wellFormed {s : State} {sc : Scheme} (hs : s.scheme = sc.code) (d : Bit1) :
    (encodeBit sc d s).WellFormed := by
  cases hmap : (symbolMap sc d (polVal s.pol)).samples with
  | single a =>
    exact State.wellFormed_of_holdsLast (by simp [encodeBit, hmap])
      ⟨sc, d, polVal s.pol, by simpa using hs, .inl ⟨a, hmap, by simp [encodeBit, hmap]⟩⟩
  | pair a b =>
    exact State.wellFormed_of_holdsPair (by simp [encodeBit, hmap])
      ⟨sc, d, polVal s.pol, a, b, by simpa using hs, hmap, by simp [encodeBit, hmap],
        by simp [encodeBit, hmap]⟩

/-- A word executed on an empty queue, the only one it meets (R97), keeps a state well formed. -/
theorem execute_keeps_wellFormed {s t : State} {w : CmdWord} (hw : s.WellFormed) (hq : s.qcnt = 0#2)
    (h : execute (decode w) s = .next t) : t.WellFormed := by
  rcases execute_next_cases h with ⟨sc, -, rfl⟩ | ⟨d, sc, -, -, hs, rfl⟩ | ⟨e, -, rfl⟩
  · exact State.wellFormed_of_empty (by simpa using hq) (by simpa using code_le sc)
  · exact encodeBit_wellFormed hs d
  · exact State.wellFormed_of_empty (by simpa using hq) (by simpa using hw.scheme)

/-! ### The step and runs -/

/-- Every step keeps the invariant: a clock stop and a cycle before the first reset edge promise nothing, a
reset edge establishes it, and after one the delivery and the accepted word keep it. -/
theorem step_keeps_inv {s t : State} (hi : s.Inv) (h : step s = .next t) : t.Inv := by
  intro hseen
  rcases step_next_cases h with ⟨-, rfl⟩ | ⟨i, -, ⟨-, rfl⟩ | ⟨-, hs, -, -, rfl⟩ | ⟨-, hs, -, rfl⟩ |
    ⟨-, hs, hacc, hx⟩⟩
  · simp at hseen
  · exact State.resetRegisters_wellFormed _
  · simp [hs] at hseen
  · exact ((hi hs).recordCycle i).afterDelivery i
  · exact execute_keeps_wellFormed (((hi hs).recordCycle i).afterDelivery i)
      (qcnt_afterDelivery_of_accepts hacc) hx

/-- What every step keeps, every run keeps. -/
theorem run_keeps {P : State → Prop} (hstep : ∀ {s t}, P s → step s = .next t → P t) {k : Nat} {s t : State}
    (hs : P s) (h : run k s = .next t) : P t := by
  induction k generalizing s with
  | zero =>
    cases h
    exact hs
  | succ k ih =>
    obtain ⟨u, hu, hrun⟩ := run_succ_eq_next.mp h
    exact ih (hstep hs hu) hrun

/-- The state right after reset has the invariant, whatever the host will do (R35, R202). -/
theorem State.resetWith_inv (stim : List HostEvent) : (State.resetWith stim).Inv :=
  fun _ => State.wellFormed_of_empty rfl (by simp [State.resetWith, State.reset])

/-- Settles O44: the invariant holds at reset and every step keeps it, so a run from reset keeps it. -/
theorem reachableStatesAreWellFormed : Obligations.ReachableStatesAreWellFormed := fun stim _ _ h =>
  run_keeps step_keeps_inv (State.resetWith_inv stim) h

end Sys2Proof.Machine
end

section
/-! SUPPORT. The command map, the symbol map and the sample words of spec/30_encoding.md R77, R78 and R80. -/

namespace Sys2Proof.Machine

/-! ### The command map -/

/-- The decoder undoes the encoder on every command (R71, R72, R75). -/
@[simp] theorem decode_encode (i : Instr) : decode (encode i) = .command i := by
  rcases instr_cases i with ⟨d, rfl⟩ | ⟨sc, rfl⟩
  · exact decode_encode_bit d
  · exact decode_encode_startInstr sc

theorem decode_of_eq_encode {w : CmdWord} (i : Instr) (h : w = encode i) : decode w = .command i :=
  h ▸ decode_encode i

/-- Settles O1: the eleven legal words are the encodings of their commands, and the two ranges are those in
which the decoder raises its two errors. -/
theorem decodeFollowsCommandMap : Obligations.DecodeFollowsCommandMap := fun w =>
  ⟨decode_of_eq_encode (.bit 0#1), decode_of_eq_encode (.bit 1#1), (decode_eq_illegalCommand_iff w).mpr,
    decode_of_eq_encode .startUnipolar, decode_of_eq_encode .startNrzl, decode_of_eq_encode .startNrzi,
    decode_of_eq_encode .startRz, decode_of_eq_encode .startManchester,
    decode_of_eq_encode .startDiffManchester, decode_of_eq_encode .startAmi, decode_of_eq_encode .startB8zs,
    decode_of_eq_encode .startHdb3, (decode_eq_unknownScheme_iff w).mpr⟩

/-! ### The symbol map, one equation per scheme and bit -/

@[simp] theorem symbolMap_unipolar_zero (p : Polarity) : symbolMap .unipolar 0#1 p = ⟨.single .zero, p⟩ := rfl
@[simp] theorem symbolMap_unipolar_one (p : Polarity) : symbolMap .unipolar 1#1 p = ⟨.single .pos, p⟩ := rfl
@[simp] theorem symbolMap_nrzl_zero (p : Polarity) : symbolMap .nrzl 0#1 p = ⟨.single .neg, p⟩ := rfl
@[simp] theorem symbolMap_nrzl_one (p : Polarity) : symbolMap .nrzl 1#1 p = ⟨.single .pos, p⟩ := rfl
@[simp] theorem symbolMap_nrzi_zero (p : Polarity) : symbolMap .nrzi 0#1 p = ⟨.single (polLevel p), p⟩ := rfl
@[simp] theorem symbolMap_nrzi_one (p : Polarity) :
    symbolMap .nrzi 1#1 p = ⟨.single (polLevel (negPol p)), negPol p⟩ := rfl
@[simp] theorem symbolMap_rz_zero (p : Polarity) : symbolMap .rz 0#1 p = ⟨.pair .neg .zero, p⟩ := rfl
@[simp] theorem symbolMap_rz_one (p : Polarity) : symbolMap .rz 1#1 p = ⟨.pair .pos .zero, p⟩ := rfl
@[simp] theorem symbolMap_manchester_zero (p : Polarity) :
    symbolMap .manchester 0#1 p = ⟨.pair .neg .pos, p⟩ := rfl
@[simp] theorem symbolMap_manchester_one (p : Polarity) :
    symbolMap .manchester 1#1 p = ⟨.pair .pos .neg, p⟩ := rfl
@[simp] theorem symbolMap_diffManchester_zero (p : Polarity) :
    symbolMap .diffManchester 0#1 p = ⟨.pair (polLevel (negPol p)) (polLevel p), negPol p⟩ := by
  cases p <;> rfl
@[simp] theorem symbolMap_diffManchester_one (p : Polarity) :
    symbolMap .diffManchester 1#1 p = ⟨.pair (polLevel p) (polLevel (negPol p)), p⟩ := rfl
@[simp] theorem symbolMap_ami_zero (p : Polarity) : symbolMap .ami 0#1 p = ⟨.single .zero, p⟩ := rfl
@[simp] theorem symbolMap_ami_one (p : Polarity) :
    symbolMap .ami 1#1 p = ⟨.single (polLevel (negPol p)), negPol p⟩ := rfl

/-- B8ZS is AMI without zero-substitution (R134). -/
@[simp] theorem symbolMap_b8zs : symbolMap .b8zs = symbolMap .ami := rfl

/-- HDB3 is AMI without zero-substitution (R135). -/
@[simp] theorem symbolMap_hdb3 : symbolMap .hdb3 = symbolMap .ami := rfl

@[simp] theorem sampleList_single (a : Level) : sampleList (.single a) = [⟨a, 0#1⟩] := rfl
@[simp] theorem sampleList_pair (a b : Level) : sampleList (.pair a b) = [⟨a, 0#1⟩, ⟨b, 1#1⟩] := rfl

/-- Settles O6: the table is the equations above, B8ZS and HDB3 reading AMI's. -/
theorem symbolMapTable : Obligations.SymbolMapTable :=
  ⟨rfl, fun _ _ => schemeOfCode_eq_some, rfl, rfl, fun a b => ⟨sampleList_single a, sampleList_pair a b⟩,
    fun p => by simp⟩

/-! ### The words a scheme produces -/

/-- The words of a scheme and a bit, over the two carried levels. -/
theorem produces_iff {sc : Scheme} {d : Bit1} {w : SampleWord} : Produces sc d w ↔
    w ∈ (sampleList (symbolMap sc d .plus).samples).map sampleWord ∨
      w ∈ (sampleList (symbolMap sc d .minus).samples).map sampleWord := by
  simp [Produces, exists_polarity]

/-- The level bits of a produced word are an encoded level, so never `2'b10` (R9, R78). -/
theorem sampleLevel_ne_of_produces {sc : Scheme} {d : Bit1} {w : SampleWord} (h : Produces sc d w) :
    sampleLevel w ≠ 0b10#2 := by
  obtain ⟨p, x, -, rfl⟩ := h
  simpa using enc_ne_illegal x.level

section
variable {d : Bit1} {w : SampleWord}

/-! Where a bit emits the carried level, both polarities occur on it. -/

@[simp] theorem produces_unipolar :
    Produces .unipolar d w ↔ d = 0#1 ∧ w = 0b000#3 ∨ d = 1#1 ∧ w = 0b010#3 := by
  rcases bit1_cases d with rfl | rfl <;> simp [produces_iff, sampleWord, enc]

@[simp] theorem produces_nrzl :
    Produces .nrzl d w ↔ d = 0#1 ∧ w = 0b110#3 ∨ d = 1#1 ∧ w = 0b010#3 := by
  rcases bit1_cases d with rfl | rfl <;> simp [produces_iff, sampleWord, enc]

@[simp] theorem produces_nrzi : Produces .nrzi d w ↔ w = 0b010#3 ∨ w = 0b110#3 := by
  rcases bit1_cases d with rfl | rfl <;>
    simp [produces_iff, sampleWord, enc, polLevel, negPol, or_comm]

@[simp] theorem produces_rz :
    Produces .rz d w ↔ d = 0#1 ∧ w = 0b110#3 ∨ d = 1#1 ∧ w = 0b010#3 ∨ w = 0b001#3 := by
  rcases bit1_cases d with rfl | rfl <;> simp [produces_iff, sampleWord, enc]

@[simp] theorem produces_manchester : Produces .manchester d w ↔
    d = 0#1 ∧ (w = 0b110#3 ∨ w = 0b011#3) ∨ d = 1#1 ∧ (w = 0b010#3 ∨ w = 0b111#3) := by
  rcases bit1_cases d with rfl | rfl <;> simp [produces_iff, sampleWord, enc]

@[simp] theorem produces_diffManchester : Produces .diffManchester d w ↔
    (w = 0b010#3 ∨ w = 0b111#3) ∨ (w = 0b110#3 ∨ w = 0b011#3) := by
  rcases bit1_cases d with rfl | rfl
  · simp [produces_iff, sampleWord, enc, polLevel, negPol, or_comm]
  · simp [produces_iff, sampleWord, enc, polLevel, negPol]

@[simp] theorem produces_ami : Produces .ami d w ↔
    d = 0#1 ∧ w = 0b000#3 ∨ d = 1#1 ∧ (w = 0b010#3 ∨ w = 0b110#3) := by
  rcases bit1_cases d with rfl | rfl <;>
    simp [produces_iff, sampleWord, enc, polLevel, negPol, or_comm]

/-- B8ZS produces what AMI produces (R134). -/
@[simp] theorem produces_b8zs : Produces .b8zs d w ↔ Produces .ami d w := by simp [Produces]

/-- HDB3 produces what AMI produces (R135). -/
@[simp] theorem produces_hdb3 : Produces .hdb3 d w ↔ Produces .ami d w := by simp [Produces]

end

/-- Settles O5: each of the six words is looked up among the words of each scheme (the `produces_` lemmas);
the level bits of `100` and `101` are no level's code. -/
theorem sampleWordsThatOccur : Obligations.SampleWordsThatOccur := by
  refine ⟨fun sc d => ?_, fun sc d => ?_, fun sc d => ?_, fun sc d => ?_, fun sc d => ?_, fun sc d => ?_,
    fun sc d => ⟨fun h => sampleLevel_ne_of_produces h rfl, fun h => sampleLevel_ne_of_produces h rfl⟩⟩
  all_goals cases sc <;> simp

end Sys2Proof.Machine
end

section
/-! SUPPORT. The ports and the rising edge (spec/40_pipeline.md R91 to R97): when each port is ready, and the
step of a reset edge, of a stalled cycle and of a delivery. -/

namespace Sys2Proof.Machine

section
variable {s t : State} {i : Inputs} {e : HostEvent} {rest : List HostEvent}

/-! ### The ports -/

theorem outValid_iff : outValid s i = true ↔ i.rst = false ∧ s.qcnt ≠ 0#2 := by simp [outValid]

theorem cmdReady_iff : cmdReady s i = true ↔
    i.rst = false ∧ (s.qcnt = 0#2 ∨ s.qcnt = 1#2 ∧ i.outReady = true) := by simp [cmdReady]

/-- In a reset cycle no command is ready to be taken (R94). -/
theorem cmdReady_of_rst (h : i.rst = true) : cmdReady s i = false := by simp [cmdReady, h]

/-- In a reset cycle no sample is offered (R94). -/
theorem outValid_of_rst (h : i.rst = true) : outValid s i = false := by simp [outValid, h]

/-- A sample that is offered and not taken keeps the command port closed (R92). -/
theorem accepts_of_stalled (hv : outValid s i = true) (ho : i.outReady = false) : accepts s i = false := by
  obtain ⟨-, hq⟩ := outValid_iff.mp hv
  simp [accepts, cmdReady, hq, ho]

theorem delivers_of_not_outReady (ho : i.outReady = false) : delivers s i = false := by simp [delivers, ho]

theorem delivers_iff : delivers s i = true ↔ outValid s i = true ∧ i.outReady = true := by simp [delivers]

/-! ### The operations of an edge -/

theorem nextEvent_of_stimulus (h : s.stimulus = e :: rest) : nextEvent s = e := by simp [nextEvent, h]

theorem recordCycle_of_stimulus (h : s.stimulus = .cycle i :: rest) :
    s.recordCycle i = { s with stimulus := rest, trace := s.trace ++ [.edge i (outputs s i)] } := by
  simp [State.recordCycle, State.record, h]

theorem afterDelivery_of_delivers (h : delivers s i = true) : s.afterDelivery i = s.popQueue := if_pos h

theorem afterDelivery_of_not_delivers (h : delivers s i = false) : s.afterDelivery i = s :=
  if_neg (ne_true_of_eq_false h)

theorem popQueue_of_two (h : s.qcnt = 2#2) : s.popQueue = { s with q0 := s.q1, qcnt := 1#2 } := if_pos h

theorem popQueue_of_ne_two (h : s.qcnt ≠ 2#2) : s.popQueue = { s with qcnt := 0#2 } := if_neg h

/-- In an open frame a BIT that answers a state has encoded its bit by the scheme of `SCHEME` (R119). -/
theorem exec_bit_active_next {d : Bit1} (ha : s.active = true) (h : exec (.bit d) s = .next t) :
    ∃ sc, schemeOfCode s.scheme = some sc ∧ t = encodeBit sc d s := by
  cases hc : schemeOfCode s.scheme with
  | none =>
    rw [exec_bit_unassigned ha hc] at h
    cases h
  | some sc =>
    rw [exec_bit_inside ha (schemeOfCode_eq_some.mp hc)] at h
    cases h
    exact ⟨sc, rfl, rfl⟩

/-! ### The step -/

/-- A reset edge comes before everything else (R94). -/
theorem step_of_reset (he : nextEvent s = .cycle i) (hr : i.rst = true) :
    step s = .next (s.recordCycle i).resetRegisters := by
  rw [step_of_cycle he, clockEdge, if_pos hr]

/-- A cycle whose offered sample is not taken changes no register: nothing leaves and nothing is accepted. -/
theorem step_of_stalled (he : nextEvent s = .cycle i) (hv : outValid s i = true) (ho : i.outReady = false)
    (h : step s = .next t) : t = s.recordCycle i := by
  obtain ⟨hr, -⟩ := outValid_iff.mp hv
  rcases step_cycle_cases he hr h with ⟨-, rfl⟩ | ⟨-, hacc, -⟩
  · exact afterDelivery_of_not_delivers (delivers_of_not_outReady ho)
  · rw [accepts_of_stalled hv ho] at hacc
    cases hacc

end

/-! ### The obligations -/

/-- Settles O21: a stalled cycle changes no register, so the sample stays offered; a reset edge empties the
queue. -/
theorem outputPort : Obligations.OutputPort := by
  refine ⟨fun s i => ⟨rfl, fun hv => ⟨if_pos hv, if_pos hv⟩, fun hv => ?_, fun _ => rfl⟩, ?_, ?_⟩
  · exact ⟨if_neg (ne_true_of_eq_false hv), if_neg (ne_true_of_eq_false hv)⟩
  · intro s t i j he h hv ho hj
    obtain rfl := step_of_stalled he hv ho h
    obtain ⟨-, hq⟩ := outValid_iff.mp hv
    exact ⟨rfl, outValid_iff.mpr ⟨hj, hq⟩⟩
  · intro s t i j he h hr
    rw [step_of_reset he hr] at h
    cases h
    simp [outValid]

/-- Settles O22: `cmd_ready` is a formula of `rst`, `QCNT` and `out_ready` alone. -/
theorem commandPort : Obligations.CommandPort := fun _ _ => ⟨cmdReady_iff, fun _ _ => rfl⟩

/-- Settles O26: a reset edge writes every register, and its cycle has neither port ready. -/
theorem resetEdge : Obligations.ResetEdge := by
  intro s i rest hs hr
  refine ⟨.edge i (outputs s i), ?_, ?_, ?_⟩
  · simp [TraceEntry.accepted, cmdReady_of_rst hr]
  · simp [TraceEntry.delivered, outValid_of_rst hr]
  · rw [step_of_reset (nextEvent_of_stimulus hs) hr, recordCycle_of_stimulus hs]
    rfl

/-- Settles O28: the state after the delivery is the popped queue, on which the accepted word, if there is
one, is executed. -/
theorem deliveryPopsTheQueue : Obligations.DeliveryPopsTheQueue := by
  intro s i rest hs hseen hr hv ho
  have he := nextEvent_of_stimulus hs
  have hpop : (s.recordCycle i).afterDelivery i = (s.recordCycle i).popQueue :=
    afterDelivery_of_delivers (delivers_iff.mpr ⟨hv, ho⟩)
  refine ⟨(s.recordCycle i).popQueue, fun h2 => ?_, fun h2 => ?_, fun hno => ?_, fun hyes => ?_⟩
  · rw [recordCycle_of_stimulus hs]
    exact popQueue_of_two h2
  · rw [recordCycle_of_stimulus hs]
    exact popQueue_of_ne_two h2
  · rw [← hpop]
    exact step_of_not_accepts he hseen hr (Bool.eq_false_iff.mpr (mt accepts_iff.mp hno))
  · have hstep := step_of_accepts he hseen (accepts_iff.mpr hyes)
    rw [hpop] at hstep
    exact ⟨fun c hc => by rw [hstep, hc, execute_command], fun e hd => by rw [hstep, hd, execute_error]⟩

/-- Settles O31: the command port opens only when this edge's delivery leaves the queue empty, and the BIT
then loads its samples as the whole queue. -/
theorem everyCommandMeetsAnEmptyQueue : Obligations.EveryCommandMeetsAnEmptyQueue := by
  intro s i hv hready
  have hempty : (s.afterDelivery i).qcnt = 0#2 := qcnt_afterDelivery_of_accepts (accepts_iff.mpr ⟨hv, hready⟩)
  obtain ⟨hr, hq⟩ := cmdReady_iff.mp hready
  refine ⟨?_, hempty, queue_of_qcnt_zero hempty, fun d t ha h => ?_⟩
  · exact hq.imp_right fun ⟨h1, ho⟩ => ⟨h1, outValid_iff.mpr ⟨hr, by simp [h1]⟩, ho⟩
  · obtain ⟨sc, hsc, rfl⟩ := exec_bit_active_next (by simpa using ha) h
    exact ⟨sc, by simpa using hsc, by simp⟩

end Sys2Proof.Machine
end

section
/-! SUPPORT. The frame control of spec/41_frame_control.md: the rule of each START and of BIT (R110 to R119),
what a run shows of its first step, and what a frame delivers (R121 to R126). -/

namespace Sys2Proof.Machine

/-! ### The line code of a bit sequence -/

section
variable {sc sc' : Scheme} {p : Polarity} {ds es : List Bit1}

@[simp] theorem carriedAfter_nil : carriedAfter sc p [] = p := rfl

@[simp] theorem carriedAfter_singleton (d : Bit1) : carriedAfter sc p [d] = (symbolMap sc d p).carried := rfl

theorem carriedAfter_append :
    carriedAfter sc p (ds ++ es) = carriedAfter sc (carriedAfter sc p ds) es := List.foldl_append

@[simp] theorem lineSamplesFrom_nil : lineSamplesFrom sc p [] = [] := rfl

@[simp] theorem lineSamplesFrom_singleton (d : Bit1) :
    lineSamplesFrom sc p [d] = sampleList (symbolMap sc d p).samples := List.append_nil _

/-- The second part of a bit sequence is encoded from the level that the first part carries on (R121). -/
theorem lineSamplesFrom_append :
    lineSamplesFrom sc p (ds ++ es) =
      lineSamplesFrom sc p ds ++ lineSamplesFrom sc (carriedAfter sc p ds) es := by
  induction ds generalizing p with
  | nil => rfl
  | cons d ds ih =>
    simp only [List.cons_append, lineSamplesFrom, ih, List.append_assoc]
    rfl

theorem samplesPerBit_eq_one_of_mem :
    ∀ sc ∈ [Scheme.unipolar, .nrzl, .nrzi, .ami, .b8zs, .hdb3], samplesPerBit sc = 1 := by decide

theorem samplesPerBit_eq_two_of_mem :
    ∀ sc ∈ [Scheme.rz, .manchester, .diffManchester], samplesPerBit sc = 2 := by decide

/-- A bit's samples are as many as its scheme has per bit (R136, R151). -/
@[simp] theorem length_sampleList_symbolMap (sc : Scheme) (d : Bit1) (p : Polarity) :
    (sampleList (symbolMap sc d p).samples).length = samplesPerBit sc := by
  rcases bit1_cases d with rfl | rfl <;> cases sc <;> simp [samplesPerBit]

theorem length_lineSamplesFrom : (lineSamplesFrom sc p ds).length = samplesPerBit sc * ds.length := by
  induction ds generalizing p with
  | nil => rfl
  | cons d ds ih => simp [lineSamplesFrom, ih, Nat.mul_add, Nat.add_comm]

/-- A scheme enters the line code through its symbol map only. -/
theorem lineSamplesFrom_congr (h : symbolMap sc = symbolMap sc') :
    lineSamplesFrom sc p ds = lineSamplesFrom sc' p ds := by
  induction ds generalizing p with
  | nil => rfl
  | cons d ds ih => simp only [lineSamplesFrom, h, ih]

theorem carriedAfter_congr (h : symbolMap sc = symbolMap sc') :
    carriedAfter sc p ds = carriedAfter sc' p ds := by simp only [carriedAfter, h]

/-- AMI encodes a 0 as level 0 however many there are: no zero-substitution (R3, R133). -/
theorem lineSamplesFrom_ami_zeros (n : Nat) :
    lineSamplesFrom .ami p (List.replicate n 0#1) = List.replicate n ⟨.zero, 0#1⟩ := by
  induction n with
  | zero => rfl
  | succ n ih => simp [List.replicate_succ, lineSamplesFrom, ih]

end

/-! ### The commands (R110 to R119) -/

/-- The rule of the START of a scheme: its word, its three registers, and the BITs of its frame. -/
theorem startRule_startInstr (sc : Scheme) :
    StartRule (startInstr sc) (encodeStart sc.code) sc.code (polBit (seed sc)) sc (samplesPerBit sc) := by
  refine ⟨encode_startInstr sc, ?_, exec_startInstr sc, fun u d ha hs => ?_⟩
  · rw [← encode_startInstr, decode_encode_startInstr]
  · exact ⟨encodeBit sc d u, exec_bit_inside ha hs d, encodeBit_queue sc d u, by simp⟩

/-- Settles O7: the rule of every START, read at the four stateless schemes. -/
theorem startOfStatelessSchemes : Obligations.StartOfStatelessSchemes :=
  ⟨startRule_startInstr .unipolar, startRule_startInstr .nrzl, startRule_startInstr .rz,
    startRule_startInstr .manchester⟩

/-- Settles O8: the rule of every START, read at the two schemes whose seed +1 is the document's. -/
theorem startOfPlusSeededSchemes : Obligations.StartOfPlusSeededSchemes :=
  ⟨startRule_startInstr .nrzi, startRule_startInstr .diffManchester⟩

/-- Settles O9: the rule of every START, read at the three schemes with seed −1. -/
theorem startOfMinusSeededSchemes : Obligations.StartOfMinusSeededSchemes :=
  ⟨startRule_startInstr .ami, startRule_startInstr .b8zs, startRule_startInstr .hdb3⟩

/-- Settles O10: the words by the decoder's ranges, and each of the three cases by the meaning of BIT in it. -/
theorem bitFollowsTheSymbolMap : Obligations.BitFollowsTheSymbolMap := by
  refine ⟨rfl, rfl, fun w hlo hhi => (decode_eq_illegalCommand_iff w).mpr ⟨hlo, hhi⟩, fun d s => ⟨?_, ?_, ?_⟩⟩
  · exact fun ha => exec_bit_outside ha d
  · intro sc a p' ha hs hmap
    rw [exec_bit_inside ha hs d, encodeBit, hmap]
    rfl
  · intro sc a b p' ha hs hmap
    rw [exec_bit_inside ha hs d, encodeBit, hmap]
    rfl

/-! ### What a cycle shows at the ports -/

section
variable {s t : State} {i : Inputs}

@[simp] theorem edge_accepted :
    (TraceEntry.edge i (outputs s i)).accepted = if accepts s i then some i.cmd else none := rfl

@[simp] theorem edge_delivered :
    (TraceEntry.edge i (outputs s i)).delivered = if delivers s i then some s.q0 else none := by
  by_cases hv : outValid s i = true
  · simp [TraceEntry.delivered, delivers, outLevel_append_outPhase hv]
  · simp [TraceEntry.delivered, delivers, hv]

/-- What a cycle delivers and what then waits is what waited before it (R53, R95). -/
theorem edge_delivered_append_queue (h3 : s.qcnt ≠ 3#2) :
    (TraceEntry.edge i (outputs s i)).delivered.toList ++ (s.afterDelivery i).queue = s.queue := by
  rw [← queue_afterDelivery (i := i) h3, edge_delivered]
  cases delivers s i <;> rfl

/-- The queue of an accepting cycle holds at most one sample (R92). -/
theorem qcnt_ne_three_of_accepts (h : accepts s i = true) : s.qcnt ≠ 3#2 := by
  obtain ⟨-, -, hq | ⟨hq, -⟩⟩ := accepts_eq.mp h <;> simp [hq]

theorem qcnt_afterDelivery_ne_three (h3 : s.qcnt ≠ 3#2) : (s.afterDelivery i).qcnt ≠ 3#2 := by
  rw [State.afterDelivery_qcnt]
  split
  · split <;> decide
  · exact h3

theorem stepEntry_of_cycle (he : nextEvent s = .cycle i) : stepEntry s = .edge i (outputs s i) := by
  simp [stepEntry, he]

/-- A quiet entry is that of a cycle without reset. -/
theorem exists_cycle_of_quiet (h : (stepEntry s).quiet = true) :
    ∃ i, nextEvent s = .cycle i ∧ i.rst = false := by
  cases he : nextEvent s with
  | clockStop => simp [stepEntry, he, TraceEntry.quiet] at h
  | cycle i => exact ⟨i, rfl, by simpa [stepEntry, he, TraceEntry.quiet] using h⟩

/-- An entry that shows an accepted word is that of an accepting cycle. -/
theorem exists_cycle_of_accepted {w : CmdWord} (h : (stepEntry s).accepted = some w) :
    ∃ i, nextEvent s = .cycle i ∧ accepts s i = true ∧ i.cmd = w := by
  cases he : nextEvent s with
  | clockStop => simp [stepEntry, he, TraceEntry.accepted] at h
  | cycle i => exact ⟨i, rfl, by simpa [stepEntry_of_cycle he] using h⟩

/-- A cycle that accepts a word, when it answers a state, has executed it on the state after the delivery. -/
theorem execute_of_step_accepts (he : nextEvent s = .cycle i) (ha : accepts s i = true)
    (h : step s = .next t) :
    execute (decode i.cmd) ((s.recordCycle i).afterDelivery i) = .next t := by
  obtain ⟨-, hr, -⟩ := accepts_eq.mp ha
  rcases step_cycle_cases he hr h with ⟨hno, -⟩ | ⟨-, -, hx⟩
  · rw [ha] at hno
    cases hno
  · exact hx

end

/-! ### What a run shows of its first step -/

@[simp] theorem acceptedWords_cons (e : TraceEntry) (es : List TraceEntry) :
    acceptedWords (e :: es) = e.accepted.toList ++ acceptedWords es := by
  simp [acceptedWords, List.filterMap_eq_flatMap_toList]

@[simp] theorem deliveredSamples_cons (e : TraceEntry) (es : List TraceEntry) :
    deliveredSamples (e :: es) = e.delivered.toList ++ deliveredSamples es := by
  simp [deliveredSamples, List.filterMap_eq_flatMap_toList]

/-- A run only adds to the trace. -/
theorem run_extends_trace {k : Nat} {s t : State} (h : run k s = .next t) : s.trace <+: t.trace :=
  run_keeps (P := fun u => s.trace <+: u.trace)
    (fun hu hstep => hu.trans ⟨_, (step_bookkeeping hstep).2.symm⟩) ⟨[], List.append_nil _⟩ h

/-- What a run of `k + 1` steps adds to the trace is the entry of its first step and what the other `k`
add. -/
theorem run_succ_seen {k : Nat} {s t : State} {tr : List TraceEntry} (h : run (k + 1) s = .next t)
    (htr : t.trace = s.trace ++ tr) :
    ∃ u es, step s = .next u ∧ run k u = .next t ∧ tr = stepEntry s :: es ∧ t.trace = u.trace ++ es := by
  obtain ⟨u, hstep, hrun⟩ := run_succ_eq_next.mp h
  obtain ⟨es, hes⟩ := run_extends_trace hrun
  obtain ⟨-, hu⟩ := step_bookkeeping hstep
  refine ⟨u, es, hstep, hrun, ?_, hes.symm⟩
  rw [hu, htr, List.append_assoc] at hes
  exact (List.append_cancel_left hes).symm

/-! ### A piece of a frame -/

/-- A frame of a scheme is open with a carried level, and its queue count is one that occurs (R28). -/
structure State.InFrame (sc : Scheme) (p : Polarity) (s : State) : Prop where
  active : s.active = true
  scheme : s.scheme = sc.code
  pol : s.pol = polBit p
  queueCount : s.qcnt ≠ 3#2

/-- From `s`, with carried level `p`, to `u` a frame has taken the bits `ds` and delivered `out`: no sample is
lost, repeated or reordered, and no error is raised (R121, R53). -/
structure FrameSegment (sc : Scheme) (p : Polarity) (ds : List Bit1) (out : List SampleWord)
    (s u : State) : Prop where
  inFrame : u.InFrame sc (carriedAfter sc p ds)
  samples : out ++ u.queue = s.queue ++ (lineSamplesFrom sc p ds).map sampleWord
  err : u.err = s.err

section
variable {sc : Scheme} {p : Polarity} {ds ds' : List Bit1} {out out' : List SampleWord} {s u v : State}

theorem FrameSegment.refl (hs : s.InFrame sc p) : FrameSegment sc p [] [] s s :=
  ⟨hs, by simp, rfl⟩

/-- A piece of a frame and the piece after it are a piece. -/
theorem FrameSegment.trans (h : FrameSegment sc p ds out s u)
    (h' : FrameSegment sc (carriedAfter sc p ds) ds' out' u v) :
    FrameSegment sc p (ds ++ ds') (out ++ out') s v where
  inFrame := by
    rw [carriedAfter_append]
    exact h'.inFrame
  samples := by
    rw [List.append_assoc, h'.samples, ← List.append_assoc, h.samples, lineSamplesFrom_append,
      List.map_append, List.append_assoc]
  err := h'.err.trans h.err

/-- The delivery of a cycle is a piece that takes no bit. -/
theorem State.InFrame.segment_afterDelivery (hs : s.InFrame sc p) (i : Inputs) :
    FrameSegment sc p [] (TraceEntry.edge i (outputs s i)).delivered.toList s
      ((s.recordCycle i).afterDelivery i) where
  inFrame := ⟨by simpa using hs.active, by simpa using hs.scheme, by simpa using hs.pol,
    qcnt_afterDelivery_ne_three hs.queueCount⟩
  samples := by
    rw [lineSamplesFrom_nil, List.map_nil, List.append_nil]
    exact edge_delivered_append_queue (s := s.recordCycle i) hs.queueCount
  err := by simp

/-- A BIT on an empty queue, the only one it meets (R97), is a piece that takes its bit and delivers nothing. -/
theorem State.InFrame.segment_encodeBit (hs : s.InFrame sc p) (hq : s.qcnt = 0#2) (d : Bit1) :
    FrameSegment sc p [d] [] s (encodeBit sc d s) where
  inFrame := {
    active := by simpa using hs.active
    scheme := by simpa using hs.scheme
    pol := by simp [hs.pol]
    queueCount := by rcases encodeBit_qcnt sc d s with h | h <;> simp [h] }
  samples := by simp [queue_of_qcnt_zero hq, hs.pol]
  err := by simp

/-- A cycle of a frame is a piece that takes the bit of the BIT it accepts, if it accepts one. -/
theorem State.InFrame.segment_step (hs : s.InFrame sc p) (h : step s = .next u)
    (hquiet : (stepEntry s).quiet = true)
    (hacc : (stepEntry s).accepted.toList = ds.map fun d => encode (.bit d)) :
    FrameSegment sc p ds (stepEntry s).delivered.toList s u := by
  obtain ⟨i, he, hr⟩ := exists_cycle_of_quiet hquiet
  rw [stepEntry_of_cycle he] at hacc ⊢
  have hdel := hs.segment_afterDelivery i
  rcases step_cycle_cases he hr h with ⟨ha, rfl⟩ | ⟨-, ha, hx⟩
  · rw [edge_accepted, ha] at hacc
    obtain rfl := List.map_eq_nil_iff.mp hacc.symm
    exact hdel
  · rw [edge_accepted, ha] at hacc
    obtain ⟨d, rfl, hd⟩ := List.map_eq_singleton_iff.mp hacc.symm
    rw [← hd, decode_encode_bit, execute_command,
      exec_bit_inside hdel.inFrame.active hdel.inFrame.scheme] at hx
    cases hx
    simpa using hdel.trans (hdel.inFrame.segment_encodeBit (qcnt_afterDelivery_of_accepts ha) d)

/-- A run without reset edge and clock stop that accepts exactly the BITs of `ds` is a piece that takes
`ds`. -/
theorem State.InFrame.segment_run {k : Nat} {tr : List TraceEntry} (hs : s.InFrame sc p)
    (h : run k s = .next u) (htr : u.trace = s.trace ++ tr) (hquiet : ∀ e ∈ tr, e.quiet = true)
    (hacc : acceptedWords tr = ds.map fun d => encode (.bit d)) :
    FrameSegment sc p ds (deliveredSamples tr) s u := by
  induction k generalizing s p ds tr with
  | zero =>
    cases h
    obtain rfl : tr = [] := by simpa using htr
    obtain rfl := List.map_eq_nil_iff.mp hacc.symm
    exact .refl hs
  | succ k ih =>
    obtain ⟨v, es, hstep, hrun, rfl, hes⟩ := run_succ_seen h htr
    obtain ⟨hq, hqs⟩ := List.forall_mem_cons.mp hquiet
    rw [acceptedWords_cons, eq_comm, List.map_eq_append_iff] at hacc
    obtain ⟨ds₁, ds₂, rfl, hacc₁, hacc₂⟩ := hacc
    have hfirst := hs.segment_step hstep hq hacc₁.symm
    rw [deliveredSamples_cons]
    exact hfirst.trans (ih hfirst.inFrame hrun hes hqs hacc₂.symm)

end

/-! ### A frame from its START on -/

/-- An accepted START opens the frame on the emptied queue with the seed of its scheme, and keeps `ERR`
(R110 to R118, R125). -/
theorem openFrame_afterDelivery_of_accepts {s : State} {i : Inputs} (ha : accepts s i = true) (sc : Scheme) :
    let u := ((s.recordCycle i).afterDelivery i).openFrame sc.code (seed sc)
    u.InFrame sc (seed sc) ∧ u.queue = [] ∧ u.err = s.err := by
  have hq : ((s.recordCycle i).afterDelivery i).qcnt = 0#2 := qcnt_afterDelivery_of_accepts ha
  exact ⟨⟨rfl, rfl, rfl, ne_of_eq_of_ne hq (by decide)⟩, queue_of_qcnt_zero hq, by simp⟩

/-- From its START on a frame is a piece that begins with the seed and an empty queue. -/
theorem FrameRun.segment {sc : Scheme} {bits : List Bit1} {k : Nat} {s t : State} {opening : TraceEntry}
    {rest : List TraceEntry} (h : FrameRun sc bits k s t opening rest) :
    ∃ u : State, u.queue = [] ∧ u.err = s.err ∧
      FrameSegment sc (seed sc) bits (deliveredSamples rest) u t := by
  obtain ⟨hran, hseen, hopened, hquiet, haccepted⟩ := h
  cases k with
  | zero =>
    cases hran
    simp at hseen
  | succ k =>
    obtain ⟨u, es, hstep, hrun, hcons, hes⟩ := run_succ_seen hran hseen
    cases hcons
    obtain ⟨i, he, ha, hcmd⟩ := exists_cycle_of_accepted hopened
    have hx := execute_of_step_accepts he ha hstep
    rw [hcmd, decode_encode_startInstr, execute_command, exec_startInstr] at hx
    cases hx
    obtain ⟨hframe, hqueue, herr⟩ := openFrame_afterDelivery_of_accepts ha sc
    exact ⟨_, hqueue, herr, hframe.segment_run hrun hes hquiet haccepted⟩

section
variable {sc sc' : Scheme} {bits : List Bit1} {k : Nat} {s t : State} {opening : TraceEntry}
  {rest : List TraceEntry}

/-- What a frame has delivered and still holds is its line code (R121). -/
theorem FrameRun.delivered_append_queue (h : FrameRun sc bits k s t opening rest) :
    deliveredSamples rest ++ t.queue = (lineSamples sc bits).map sampleWord := by
  obtain ⟨u, hu, -, hseg⟩ := h.segment
  rw [hseg.samples, hu, List.nil_append, lineSamples]

/-- Once its queue is empty, a frame has delivered its line code (R121). -/
theorem FrameRun.delivered_of_empty (h : FrameRun sc bits k s t opening rest) (hq : t.qcnt = 0#2) :
    deliveredSamples rest = (lineSamples sc bits).map sampleWord := by
  simpa [queue_of_qcnt_zero hq] using h.delivered_append_queue

theorem FrameRun.inFrame (h : FrameRun sc bits k s t opening rest) :
    t.InFrame sc (carriedAfter sc (seed sc) bits) := by
  obtain ⟨_, -, -, hseg⟩ := h.segment
  exact hseg.inFrame

/-- A frame raises no error and clears none (R121). -/
theorem FrameRun.err (h : FrameRun sc bits k s t opening rest) : t.err = s.err := by
  obtain ⟨u, -, hu, hseg⟩ := h.segment
  exact hseg.err.trans hu

/-- The number of samples a frame delivers (R122). -/
theorem FrameRun.length_delivered (h : FrameRun sc bits k s t opening rest) (hq : t.qcnt = 0#2) :
    (deliveredSamples rest).length = samplesPerBit sc * bits.length := by
  rw [h.delivered_of_empty hq, List.length_map, lineSamples, length_lineSamplesFrom]

end

/-! ### The obligations on frames -/

/-- Settles O48: the frame is a piece that begins with the seed and an empty queue. -/
theorem frameDeliversTheLineCode : Obligations.FrameDeliversTheLineCode := by
  intro sc bits k s t opening rest h
  obtain ⟨hactive, hscheme, hpol, -⟩ := h.inFrame
  exact ⟨h.delivered_append_queue, fun hq => by simp [h.delivered_of_empty hq, lineLevels, Function.comp_def],
    hactive, hscheme, h.err, hpol⟩

/-- Settles O50: both frames have the line code of the same scheme and bits. -/
theorem framesAreIndependent : Obligations.FramesAreIndependent := by
  intro sc bits k k' s t s' t' opening opening' rest rest' h h'
  exact ⟨h.delivered_append_queue.trans h'.delivered_append_queue.symm,
    fun hq hq' => (h.delivered_of_empty hq).trans (h'.delivered_of_empty hq').symm⟩

/-- B8ZS and HDB3 have the symbol map and the seed of AMI and another code (R134, R135). -/
theorem eq_ami_of_b8zs_or_hdb3 {sc : Scheme} (h : sc = .b8zs ∨ sc = .hdb3) :
    symbolMap sc = symbolMap .ami ∧ seed sc = seed .ami ∧ sc.code ≠ Scheme.ami.code := by
  rcases h with rfl | rfl
  · exact ⟨symbolMap_b8zs, rfl, by decide⟩
  · exact ⟨symbolMap_hdb3, rfl, by decide⟩

/-- Settles O51: equal symbol maps and seeds give equal line codes and carried levels. -/
theorem b8zsAndHdb3EqualAmi : Obligations.B8zsAndHdb3EqualAmi := by
  intro sc bits k k' s t s' t' opening opening' rest rest' hsc h h'
  obtain ⟨hmap, hseed, hcode⟩ := eq_ami_of_b8zs_or_hdb3 hsc
  have hline : ∀ ds, lineSamples sc ds = lineSamples .ami ds := fun ds => by
    rw [lineSamples, lineSamples, hseed, lineSamplesFrom_congr hmap]
  refine ⟨?_, ?_, ?_, fun n => ?_⟩
  · rw [h.delivered_append_queue, h'.delivered_append_queue, hline]
  · rw [h.inFrame.pol, h'.inFrame.pol, hseed, carriedAfter_congr hmap]
  · rwa [h.inFrame.scheme, h'.inFrame.scheme]
  · rw [lineLevels, hline, lineSamples, lineSamplesFrom_ami_zeros, List.map_replicate]

/-- Settles O49: the length of the line code, with the samples per bit of each group. -/
theorem frameLength : Obligations.FrameLength := by
  intro sc bits k s t opening rest h hq
  rw [h.length_delivered hq]
  exact ⟨fun hsc => by rw [samplesPerBit_eq_one_of_mem sc hsc, Nat.one_mul],
    fun hsc => by rw [samplesPerBit_eq_two_of_mem sc hsc]⟩

/-- Settles O52: the line code of no bits is empty. -/
theorem emptyFrameIsSilent : Obligations.EmptyFrameIsSilent := by
  intro sc k s t opening rest h
  obtain ⟨hdelivered, hqueue⟩ := List.append_eq_nil_iff.mp h.delivered_append_queue
  exact ⟨hdelivered, hqueue, h.err, h.inFrame.active⟩

/-- Settles O53: the accepting edge delivers all that waits and opens the new frame on the empty queue. -/
theorem startEndsTheOpenFrame : Obligations.StartEndsTheOpenFrame := by
  intro s i rest sc hs hseen _ hv hready hcmd
  have ha : accepts s i = true := accepts_iff.mpr ⟨hv, hready⟩
  obtain ⟨⟨hactive, hscheme, hpol, -⟩, hqueue, herr⟩ := openFrame_afterDelivery_of_accepts ha sc
  refine ⟨_, ?_, ?_, hqueue, hactive, hscheme, hpol, herr⟩
  · rw [step_of_accepts (nextEvent_of_stimulus hs) hseen ha, hcmd, decode_encode_startInstr, execute_command,
      exec_startInstr]
  · have hdel := edge_delivered_append_queue (i := i) (qcnt_ne_three_of_accepts ha)
    rwa [queue_of_qcnt_zero (qcnt_afterDelivery_of_accepts ha), List.append_nil] at hdel

end Sys2Proof.Machine
end

section
/-! SUPPORT. BIT under the six single-sample schemes of spec/42_single_sample.md R130 to R135: a bit either keeps
the carried level or inverts it, and loads one sample of phase 0. -/

namespace Sys2Proof.Machine

/-! ### The carried level as a bit -/

/-- The only sample of a bit that emits a polarity, read off the bit of `POL` (R10, R78). -/
theorem sampleWord_polLevel_polVal (b : Bit1) :
    sampleWord ⟨polLevel (polVal b), 0#1⟩ = if b = 0#1 then 0b010#3 else 0b110#3 := by
  rcases bit1_cases b with rfl | rfl <;> rfl

@[simp] theorem negPol_polVal (b : Bit1) : negPol (polVal b) = polVal (~~~b) := by
  rcases bit1_cases b with rfl | rfl <;> rfl

theorem not_bit1_eq_zero_iff {b : Bit1} : ~~~b = 0#1 ↔ b = 1#1 := by
  revert b; decide

/-! ### One sample per bit -/

section
variable {s : State} {sc : Scheme} {d : Bit1} {a : Level}

/-- A bit mapped to one level becomes the whole queue, and the next carried level goes to `POL` (R119). -/
theorem exec_bit_of_single {p : Polarity} (ha : s.active = true) (hs : s.scheme = sc.code)
    (hmap : symbolMap sc d (polVal s.pol) = ⟨.single a, p⟩) :
    exec (.bit d) s = .next { s with qcnt := 1#2, q0 := sampleWord ⟨a, 0#1⟩, pol := polBit p } := by
  obtain ⟨-, -, -, hbit⟩ := bitFollowsTheSymbolMap
  obtain ⟨-, hsingle, -⟩ := hbit d s
  exact hsingle sc a p ha hs hmap

/-- A bit that keeps the carried level changes the queue only. -/
theorem exec_bit_of_single_kept (ha : s.active = true) (hs : s.scheme = sc.code)
    (hmap : symbolMap sc d (polVal s.pol) = ⟨.single a, polVal s.pol⟩) :
    exec (.bit d) s = .next { s with qcnt := 1#2, q0 := sampleWord ⟨a, 0#1⟩ } := by
  rw [exec_bit_of_single ha hs hmap, polBit_polVal]

/-- A bit that inverts the carried level and emits the inverted one (R132, R133). -/
theorem exec_bit_of_single_inverted (ha : s.active = true) (hs : s.scheme = sc.code)
    (hmap : symbolMap sc d (polVal s.pol) =
      ⟨.single (polLevel (negPol (polVal s.pol))), negPol (polVal s.pol)⟩) :
    exec (.bit d) s = .next { s with
      pol := ~~~s.pol
      qcnt := 1#2
      q0 := if s.pol = 1#1 then 0b010#3 else 0b110#3 } := by
  rw [exec_bit_of_single ha hs hmap, negPol_polVal, polBit_polVal, sampleWord_polLevel_polVal]
  simp only [not_bit1_eq_zero_iff]

end

/-! ### The obligations -/

/-- Settles O12: each bit keeps the carried level and has a level of its own. -/
theorem bitUnderUnipolar : Obligations.BitUnderUnipolar := by
  refine ⟨fun d s ha hs => ?_, rfl⟩
  rcases bit1_cases d with rfl | rfl
  · exact exec_bit_of_single_kept (sc := .unipolar) ha hs (symbolMap_unipolar_zero _)
  · exact exec_bit_of_single_kept (sc := .unipolar) ha hs (symbolMap_unipolar_one _)

/-- Settles O13: each bit keeps the carried level and has a level of its own. -/
theorem bitUnderNrzl : Obligations.BitUnderNrzl := by
  refine ⟨fun d s ha hs => ?_, rfl⟩
  rcases bit1_cases d with rfl | rfl
  · exact exec_bit_of_single_kept (sc := .nrzl) ha hs (symbolMap_nrzl_zero _)
  · exact exec_bit_of_single_kept (sc := .nrzl) ha hs (symbolMap_nrzl_one _)

/-- Settles O14: a 0 keeps the carried level and a 1 inverts it; either emits the level it leaves. -/
theorem bitUnderNrzi : Obligations.BitUnderNrzi := by
  refine ⟨fun d s ha hs => ?_, rfl, rfl, rfl⟩
  rcases bit1_cases d with rfl | rfl
  · rw [exec_bit_of_single_kept (sc := .nrzi) ha hs (symbolMap_nrzi_zero _), sampleWord_polLevel_polVal]
    rfl
  · rw [exec_bit_of_single_inverted (sc := .nrzi) ha hs (symbolMap_nrzi_one _)]
    simp [not_bit1_eq_zero_iff]

/-- The codes 6, 7 and 8 are those of the schemes that read AMI's symbol map (R133 to R135). -/
theorem exists_ami_map_of_code {c : SchemeCode} (h : c = 6#4 ∨ c = 7#4 ∨ c = 8#4) :
    ∃ sc : Scheme, c = sc.code ∧ symbolMap sc = symbolMap .ami := by
  rcases h with rfl | rfl | rfl
  · exact ⟨.ami, rfl, rfl⟩
  · exact ⟨.b8zs, rfl, symbolMap_b8zs⟩
  · exact ⟨.hdb3, rfl, symbolMap_hdb3⟩

/-- Settles O15: under each of the three codes a 0 keeps the polarity and a 1 inverts it, by AMI's map. -/
theorem bitUnderAmiFamily : Obligations.BitUnderAmiFamily := by
  refine ⟨fun d s ha hs => ?_, rfl, rfl, rfl⟩
  obtain ⟨sc, hcode, hmap⟩ := exists_ami_map_of_code hs
  constructor
  · rintro rfl
    exact exec_bit_of_single_kept ha hcode (by rw [hmap, symbolMap_ami_zero])
  · rintro rfl
    exact exec_bit_of_single_inverted ha hcode (by rw [hmap, symbolMap_ami_one])

end Sys2Proof.Machine
end

section
/-! SUPPORT. BIT under the three dual-sample schemes of spec/43_dual_sample.md R152 to R155: a bit loads a pair of
phases 0 and 1. RZ and Manchester keep the carried level; a bit of Differential Manchester leaves the level of its
own first half. -/

namespace Sys2Proof.Machine

/-! ### Two samples per bit -/

section
variable {s : State} {sc : Scheme} {d : Bit1} {a b : Level}

/-- A bit mapped to a pair fills the queue, and the next carried level goes to `POL` (R119). -/
theorem exec_bit_of_pair {p : Polarity} (ha : s.active = true) (hs : s.scheme = sc.code)
    (hmap : symbolMap sc d (polVal s.pol) = ⟨.pair a b, p⟩) :
    exec (.bit d) s = .next { s with
      qcnt := 2#2, q0 := sampleWord ⟨a, 0#1⟩, q1 := sampleWord ⟨b, 1#1⟩, pol := polBit p } := by
  obtain ⟨-, -, -, hbit⟩ := bitFollowsTheSymbolMap
  obtain ⟨-, -, hpair⟩ := hbit d s
  exact hpair sc a b p ha hs hmap

/-- A bit that keeps the carried level changes the queue only (R152, R153). -/
theorem exec_bit_of_pair_kept (ha : s.active = true) (hs : s.scheme = sc.code)
    (hmap : symbolMap sc d (polVal s.pol) = ⟨.pair a b, polVal s.pol⟩) :
    exec (.bit d) s = .next { s with
      qcnt := 2#2, q0 := sampleWord ⟨a, 0#1⟩, q1 := sampleWord ⟨b, 1#1⟩ } := by
  rw [exec_bit_of_pair ha hs hmap, polBit_polVal]

end

/-! ### Differential Manchester -/

/-- The bit of `POL` after the bit `d` of a Differential Manchester frame: a 0 inverts it (R154). -/
def diffManchesterPol (d pol : Bit1) : Bit1 := if d = 0#1 then ~~~pol else pol

@[simp] theorem diffManchesterPol_zero (b : Bit1) : diffManchesterPol 0#1 b = ~~~b := rfl
@[simp] theorem diffManchesterPol_one (b : Bit1) : diffManchesterPol 1#1 b = b := rfl

/-- Either bit emits the carried level it leaves and then the opposite one (R154). -/
theorem symbolMap_diffManchester_polVal (d b : Bit1) :
    symbolMap .diffManchester d (polVal b) =
      ⟨.pair (polLevel (polVal (diffManchesterPol d b))) (polLevel (polVal (~~~diffManchesterPol d b))),
        polVal (diffManchesterPol d b)⟩ := by
  rcases bit1_cases d with rfl | rfl <;> simp

/-- A bit of an open Differential Manchester frame, with both samples in terms of the `POL` it leaves. -/
theorem exec_bit_diffManchester {s : State} {d : Bit1} (ha : s.active = true) (hs : s.scheme = 5#4) :
    exec (.bit d) s = .next { s with
      pol := diffManchesterPol d s.pol
      qcnt := 2#2
      q0 := sampleWord ⟨polLevel (polVal (diffManchesterPol d s.pol)), 0#1⟩
      q1 := sampleWord ⟨polLevel (polVal (~~~diffManchesterPol d s.pol)), 1#1⟩ } := by
  rw [exec_bit_of_pair (sc := .diffManchester) ha hs (symbolMap_diffManchester_polVal d s.pol), polBit_polVal]

/-- The second sample of a bit whose first has the polarity of the bit `b` of `POL` (R78, R154). -/
theorem sampleWord_polLevel_polVal_not (b : Bit1) :
    sampleWord ⟨polLevel (polVal (~~~b)), 1#1⟩ = if b = 0#1 then 0b111#3 else 0b011#3 := by
  rcases bit1_cases b with rfl | rfl <;> rfl

/-! ### The obligations -/

/-- Settles O16: each bit keeps the carried level and has a pair of its own. -/
theorem bitUnderRz : Obligations.BitUnderRz := by
  refine ⟨fun d s ha hs => ?_, rfl⟩
  rcases bit1_cases d with rfl | rfl
  · exact exec_bit_of_pair_kept (sc := .rz) ha hs (symbolMap_rz_zero _)
  · exact exec_bit_of_pair_kept (sc := .rz) ha hs (symbolMap_rz_one _)

/-- Settles O17: each bit keeps the carried level and has a pair of its own. -/
theorem bitUnderManchester : Obligations.BitUnderManchester := by
  refine ⟨fun d s ha hs => ?_, rfl⟩
  rcases bit1_cases d with rfl | rfl
  · exact exec_bit_of_pair_kept (sc := .manchester) ha hs (symbolMap_manchester_zero _)
  · exact exec_bit_of_pair_kept (sc := .manchester) ha hs (symbolMap_manchester_one _)

/-- Settles O18: the two words of the pair are read off the bit of `POL` that the bit leaves. -/
theorem bitUnderDiffManchester : Obligations.BitUnderDiffManchester := by
  refine ⟨fun d s ha hs => ?_, rfl, rfl⟩
  rw [exec_bit_diffManchester ha hs, sampleWord_polLevel_polVal, sampleWord_polLevel_polVal_not]
  rfl

/-- Settles O19: both pairs are read off `POL`, which a following 1 keeps and a following 0 inverts. -/
theorem diffManchesterCarriesTheFirstHalf : Obligations.DiffManchesterCarriesTheFirstHalf := by
  intro d s t u ha hs ht hactive hscheme hpol
  rw [exec_bit_diffManchester ha hs] at ht
  cases ht
  have hnext := fun d' => exec_bit_diffManchester (d := d') (hactive.trans ha) (hscheme.trans hs)
  refine ⟨sampleLevel_sampleWord _, ⟨_, hnext 1#1, ?_, ?_⟩, ⟨_, hnext 0#1, ?_, ?_⟩⟩
  all_goals simp [hpol]

end Sys2Proof.Machine
end

section
/-! SUPPORT. The errors of spec/60_exceptions.md R170 to R178: the one error a decoded word can raise, and the step
that takes the error action. -/

namespace Sys2Proof.Machine

/-! ### One error at most (R178) -/

section
variable {s : State} {w : CmdWord}

/-- An error word raises the error it decodes to and no other, frame or no frame (R178). -/
theorem errorCause_of_decode_error {e₀ e : ErrorKind} (h : decode w = .error e₀) :
    ErrorCause s w e ↔ e = e₀ := by
  simp [errorCause_iff, h, @eq_comm _ e₀ e]

/-- A command raises an error only as a BIT outside a frame (R175). -/
theorem errorCause_of_decode_command {c : Instr} {e : ErrorKind} (h : decode w = .command c) :
    ErrorCause s w e ↔ e = .bitOutsideFrame ∧ s.active = false ∧ ∃ d, c = .bit d := by
  simp [errorCause_iff, h]

theorem errorCause_unique {e e' : ErrorKind} (h : ErrorCause s w e) (h' : ErrorCause s w e') : e = e' := by
  cases hd : decode w with
  | command c =>
    obtain ⟨rfl, -⟩ := (errorCause_of_decode_command hd).mp h
    obtain ⟨rfl, -⟩ := (errorCause_of_decode_command hd).mp h'
    rfl
  | error e₀ =>
    exact ((errorCause_of_decode_error hd).mp h).trans ((errorCause_of_decode_error hd).mp h').symm

/-- The words without an error are the commands that are no BIT outside a frame (R178). -/
theorem forall_not_errorCause_iff : (∀ e, ¬ErrorCause s w e) ↔
    ∃ c, decode w = .command c ∧ ((∃ d, c = .bit d) → s.active = true) := by
  cases hd : decode w with
  | command c =>
    simp only [errorCause_of_decode_command hd, Decoded.command.injEq, exists_eq_left']
    cases s.active <;> simp
  | error e₀ => simp [errorCause_of_decode_error hd]

end

/-! ### The error action (R170) -/

section
variable {s : State} {i : Inputs}

theorem errorCode_ne_zero (e : ErrorKind) : errorCode e ≠ 0#2 := by cases e <;> decide

/-- After an error `ERR` is set: it was set before, or takes a code (R27, R170). -/
theorem firstError_ne_zero (c : ErrCode) (e : ErrorKind) : firstError c e ≠ 0#2 := by
  by_cases hc : c = 0#2
  · rw [hc, firstError_zero]
    exact errorCode_ne_zero e
  · rwa [firstError_of_ne_zero hc]

/-- With no frame open and `ERR` set, the error action has nothing left to change (R170). -/
theorem raiseError_eq_self (ha : s.active = false) (he : s.err ≠ 0#2) (e : ErrorKind) : s.raiseError e = s := by
  rw [State.raiseError, firstError_of_ne_zero he, activeAfterError, ← ha]

/-- A word with the cause of an error is executed as the error action (R170 to R175). -/
theorem execute_of_errorCause {w : CmdWord} {e : ErrorKind} (h : ErrorCause s w e) :
    execute (decode w) s = .next (s.raiseError e) := by
  rcases errorCause_iff.mp h with hd | ⟨rfl, ha, d, hd⟩
  · rw [hd, execute_error]
  · rw [hd, execute_command, exec_bit_outside ha]

/-- Of the state, an error's cause reads `ACTIVE` only. -/
theorem errorCause_congr {u : State} {w : CmdWord} {e : ErrorKind} (ha : u.active = s.active) :
    ErrorCause u w e ↔ ErrorCause s w e := by
  rw [errorCause_iff, errorCause_iff, ha]

/-- The step of an accepted word with the cause of an error is the delivery and then the error action (R170). -/
theorem step_of_errorCause {e : ErrorKind} (he : nextEvent s = .cycle i) (hseen : s.resetSeen = true)
    (hacc : accepts s i = true) (hcause : ErrorCause s i.cmd e) :
    step s = .next (((s.recordCycle i).afterDelivery i).raiseError e) := by
  rw [step_of_accepts he hseen hacc]
  exact execute_of_errorCause ((errorCause_congr (by simp)).mpr hcause)

/-- A delivery that leaves room for a command leaves `Q0` its stale value (R92, R95). -/
theorem afterDelivery_q0_of_accepts (hacc : accepts s i = true) : (s.afterDelivery i).q0 = s.q0 := by
  obtain ⟨-, -, hq | ⟨hq, -⟩⟩ := accepts_eq.mp hacc <;> simp [hq]

/-- An empty queue keeps the command port open in every cycle that is no reset cycle (R92). -/
theorem cmdReady_of_qcnt_zero (hq : s.qcnt = 0#2) : cmdReady s i = !i.rst := by simp [cmdReady, hq]

end

/-! ### The obligations -/

/-- Settles O35: the step is the delivery and then the error action, which leaves the queue empty, no frame open and
`ERR` set, so that a further BIT changes nothing. -/
theorem acceptedErrorTakesTheErrorAction : Obligations.AcceptedErrorTakesTheErrorAction := by
  intro s i rest e hs hseen hv hready hcause
  have hacc : accepts s i = true := accepts_iff.mpr ⟨hv, hready⟩
  have hstep := step_of_errorCause (nextEvent_of_stimulus hs) hseen hacc hcause
  have hq0 : ((s.recordCycle i).afterDelivery i).q0 = s.q0 := afterDelivery_q0_of_accepts hacc
  have hqcnt : ((s.recordCycle i).afterDelivery i).qcnt = 0#2 := qcnt_afterDelivery_of_accepts hacc
  have hbit (d : Bit1) : exec (.bit d) (((s.recordCycle i).afterDelivery i).raiseError e) =
      .next (((s.recordCycle i).afterDelivery i).raiseError e) := by
    rw [exec_bit_outside rfl, raiseError_eq_self rfl (firstError_ne_zero _ e)]
  refine ⟨_, hstep, rfl, ?_, by simp, by simp, hq0, by simp, hqcnt, by simp [hseen], by simp, by simp [hs],
    fun j => ⟨rfl, rfl, cmdReady_of_qcnt_zero hqcnt⟩, hbit, fun sc => ⟨_, exec_startInstr sc _, rfl, rfl⟩⟩
  rw [State.raiseError_err, State.afterDelivery_err, State.recordCycle_err]
  rfl

/-- Settles O36: a word decodes to one error, or to a command whose one possible error is BitOutsideFrame. -/
theorem atMostOneErrorPerCommand : Obligations.AtMostOneErrorPerCommand := fun _ _ =>
  ⟨fun _ _ => errorCause_unique, forall_not_errorCause_iff.symm,
    fun _ hd => (errorCause_of_decode_error hd).mpr rfl⟩

end Sys2Proof.Machine
end

section
/-! SUPPORT. The hazards of spec/70_reset_and_hazards.md R204: a word offered while the command port is closed, and
the pair of a dual-sample BIT, which closes it. -/

namespace Sys2Proof.Machine

/-! ### A word that is not taken -/

section
variable {s : State} {i : Inputs}

theorem accepts_of_not_cmdReady (h : cmdReady s i = false) : accepts s i = false := by simp [accepts, h]

/-- The delivery reads neither the command port's inputs nor the bookkeeping, and keeps the bookkeeping (R95). -/
theorem afterDelivery_congr (s : State) (i : Inputs) (v : Bool) (w : CmdWord) (stim : List HostEvent)
    (tr : List TraceEntry) :
    State.afterDelivery { i with cmdValid := v, cmd := w } { s with stimulus := stim, trace := tr } =
      { s.afterDelivery i with stimulus := stim, trace := tr } := by
  have hcongr : delivers { s with stimulus := stim, trace := tr } { i with cmdValid := v, cmd := w } =
      delivers s i := delivers_congr rfl rfl rfl
  cases hd : delivers s i with
  | false => rw [afterDelivery_of_not_delivers (hcongr.trans hd), afterDelivery_of_not_delivers hd]
  | true =>
    rw [afterDelivery_of_delivers (hcongr.trans hd), afterDelivery_of_delivers hd]
    by_cases h2 : s.qcnt = 2#2
    · rw [popQueue_of_two (s := s) h2]
      exact popQueue_of_two h2
    · rw [popQueue_of_ne_two (s := s) h2]
      exact popQueue_of_ne_two h2

/-- The step of a cycle with the command port closed is its delivery alone, whatever word is offered (R204). -/
theorem step_of_not_cmdReady (hseen : s.resetSeen = true) (hr : i.rst = false) (hready : cmdReady s i = false)
    (v : Bool) (w : CmdWord) (rest : List HostEvent) :
    step { s with stimulus := .cycle { i with cmdValid := v, cmd := w } :: rest } =
      .next { s.afterDelivery i with
        stimulus := rest
        trace := s.trace ++ [.edge { i with cmdValid := v, cmd := w }
          (outputs s { i with cmdValid := v, cmd := w })] } := by
  have hstep := step_of_not_accepts
    (s := { s with stimulus := .cycle { i with cmdValid := v, cmd := w } :: rest })
    (nextEvent_of_stimulus rfl) hseen hr (accepts_of_not_cmdReady hready)
  rw [hstep, recordCycle_of_stimulus rfl]
  exact congrArg _ (afterDelivery_congr s i v w rest _)

end

/-! ### The pair of a dual-sample BIT -/

/-- A BIT of a dual-sample scheme leaves two samples (R151). -/
theorem encodeBit_qcnt_of_dual {sc : Scheme} (h : samplesPerBit sc = 2) (d : Bit1) (s : State) :
    (encodeBit sc d s).qcnt = 2#2 := by
  have hlen := length_sampleList_symbolMap sc d (polVal s.pol)
  cases hx : (symbolMap sc d (polVal s.pol)).samples with
  | single a => simp [hx, h] at hlen
  | pair a b => simp [encodeBit, hx]

/-- Two waiting samples keep the command port closed: one delivery does not empty the queue (R92). -/
theorem cmdReady_of_qcnt_two {s : State} (h : s.qcnt = 2#2) (i : Inputs) : cmdReady s i = false := by
  simp [cmdReady, h]

/-! ### The obligation -/

/-- Settles O30: with the command port closed the step is the delivery alone, which does not look at the command;
a dual-sample BIT leaves two samples, which close the port. -/
theorem wordNotAcceptedHasNoEffect : Obligations.WordNotAcceptedHasNoEffect := by
  refine ⟨fun s i rest hseen hr hready => ⟨s.afterDelivery i, fun v w =>
    ⟨_, ?_, step_of_not_cmdReady hseen hr hready v w rest⟩⟩, fun s t sc d j ha hs hdual h => ?_⟩
  · have hno : accepts s { i with cmdValid := v, cmd := w } = false := accepts_of_not_cmdReady hready
    simp [hno]
  · rw [exec_bit_inside ha hs] at h
    cases h
    exact cmdReady_of_qcnt_two (encodeBit_qcnt_of_dual hdual d s) j

end Sys2Proof.Machine
end

section
/-! SUPPORT. Who writes which register (spec/10_state.md R23 to R28, R38): what a cycle without reset does, by the
accepted word, and the samples that an accepted word produces. -/

namespace Sys2Proof.Machine

/-! ### The word of a command -/

/-- A word that decodes to a command is that command's encoding (R71, R72). -/
theorem eq_encode_of_decode {w : CmdWord} {c : Instr} (h : decode w = .command c) : w = encode c := by
  have hbit : ∀ w : CmdWord, ∀ d, decode w = .command (.bit d) → w = encode (.bit d) := by decide
  have hstart (sc : Scheme) : ∀ w : CmdWord, decode w = .command (startInstr sc) → w = encode (startInstr sc) := by
    cases sc <;> decide
  rcases instr_cases c with ⟨d, rfl⟩ | ⟨sc, rfl⟩
  · exact hbit w d h
  · exact hstart sc w h

/-- Settles O2: the decoder undoes the encoder, and no other word decodes to a command. -/
theorem decodeAndEncodeAgree : Obligations.DecodeAndEncodeAgree := fun _ c =>
  ⟨eq_encode_of_decode, decode_of_eq_encode c⟩

/-- Settles O3: the words, written field by field, are seven words of the decoder's table. -/
theorem writtenWordsDecode : Obligations.WrittenWordsDecode := by
  unfold Obligations.WrittenWordsDecode
  decide

/-- A START's word is no BIT's. -/
theorem encode_startInstr_ne_bit (sc : Scheme) (d : Bit1) : encode (startInstr sc) ≠ encode (.bit d) := by
  intro h
  have hdec := congrArg decode h
  rw [decode_encode, decode_encode, Decoded.command.injEq] at hdec
  exact startInstr_ne_bit sc d hdec

/-! ### What a cycle without reset does -/

section
variable {s t : State} {i : Inputs}

/-- What a cycle that is no reset edge does: its delivery, and then what the accepted word asks for, if one is
accepted: a START opens its frame, a BIT of an open frame is encoded, and any other word takes the error action. -/
theorem step_word_cases (he : nextEvent s = .cycle i) (hr : i.rst = false) (h : step s = .next t) :
    (accepts s i = false ∧ t = (s.recordCycle i).afterDelivery i) ∨
    (s.resetSeen = true ∧ accepts s i = true ∧
      ((∃ sc, i.cmd = encode (startInstr sc) ∧
          t = ((s.recordCycle i).afterDelivery i).openFrame sc.code (seed sc)) ∨
        (∃ d sc, i.cmd = encode (.bit d) ∧ s.active = true ∧ s.scheme = sc.code ∧
          t = encodeBit sc d ((s.recordCycle i).afterDelivery i)) ∨
        (∃ e, ErrorCause s i.cmd e ∧ t = ((s.recordCycle i).afterDelivery i).raiseError e))) := by
  rcases step_cycle_cases he hr h with hno | ⟨hseen, ha, hx⟩
  · exact .inl hno
  · refine .inr ⟨hseen, ha, ?_⟩
    rcases execute_next_cases hx with ⟨sc, hd, rfl⟩ | ⟨d, sc, hd, hact, hs, rfl⟩ | ⟨e, hcause, rfl⟩
    · exact .inl ⟨sc, eq_encode_of_decode hd, rfl⟩
    · exact .inr (.inl ⟨d, sc, eq_encode_of_decode hd, by simpa using hact, by simpa using hs, rfl⟩)
    · exact .inr (.inr ⟨e, errorCause_iff.mpr (by simpa using hcause), rfl⟩)

/-- A BIT has the cause of an error only outside a frame (R175). -/
theorem not_active_of_errorCause_bit {d : Bit1} {e : ErrorKind} (h : ErrorCause s (encode (.bit d)) e) :
    s.active = false := by
  obtain ⟨-, ha, -⟩ := (errorCause_of_decode_command (decode_encode_bit d)).mp h
  exact ha

/-! ### The samples of the accepted word (R38, R53) -/

theorem producedSamples_start (s : State) (sc : Scheme) : producedSamples s (encode (startInstr sc)) = [] := by
  cases sc <;> rfl

theorem producedSamples_bit {sc : Scheme} (ha : s.active = true) (hs : s.scheme = sc.code) (d : Bit1) :
    producedSamples s (encode (.bit d)) =
      (sampleList (symbolMap sc d (polVal s.pol)).samples).map sampleWord := by
  simp [producedSamples, ha, hs]

theorem producedSamples_of_errorCause {w : CmdWord} {e : ErrorKind} (h : ErrorCause s w e) :
    producedSamples s w = [] := by
  rcases errorCause_iff.mp h with hd | ⟨-, ha, d, hd⟩
  · simp [producedSamples, hd]
  · simp [producedSamples, hd, ha]

/-- After a cycle without reset, what it delivered and what waits is what waited before and what the accepted word
produced. -/
theorem step_conserves_samples (h3 : s.qcnt ≠ 3#2) (he : nextEvent s = .cycle i) (hr : i.rst = false)
    (h : step s = .next t) :
    (TraceEntry.edge i (outputs s i)).delivered.toList ++ t.queue =
      s.queue ++ (TraceEntry.edge i (outputs s i)).accepted.toList.flatMap (producedSamples s) := by
  have hdel : (TraceEntry.edge i (outputs s i)).delivered.toList ++ ((s.recordCycle i).afterDelivery i).queue =
      s.queue := edge_delivered_append_queue (s := s.recordCycle i) h3
  rcases step_word_cases he hr h with ⟨ha, rfl⟩ | ⟨-, ha, hword⟩
  · simpa [ha] using hdel
  · have hqcnt : ((s.recordCycle i).afterDelivery i).qcnt = 0#2 := qcnt_afterDelivery_of_accepts ha
    rw [queue_of_qcnt_zero hqcnt, List.append_nil] at hdel
    have hproduced : t.queue = producedSamples s i.cmd := by
      rcases hword with ⟨sc, hcmd, rfl⟩ | ⟨d, sc, hcmd, hact, hs, rfl⟩ | ⟨e, hcause, rfl⟩
      · rw [hcmd, producedSamples_start]
        exact queue_of_qcnt_zero hqcnt
      · rw [hcmd, producedSamples_bit hact hs, encodeBit_queue]
        simp
      · rw [producedSamples_of_errorCause hcause]
        exact queue_of_qcnt_zero hqcnt
    rw [hdel, hproduced, edge_accepted, if_pos ha]
    simp

end

/-- Settles O32: the delivery takes the head of the queue, and the accepted word's samples become the queue that it
left empty. -/
theorem samplesAreConservedInOrder : Obligations.SamplesAreConservedInOrder := fun _ _ _ hinv hseen he hr h =>
  step_conserves_samples (hinv hseen).queueCount he hr h

/-! ### SCHEME, ACTIVE and the queue -/

/-- Settles O38: of what a cycle can do, only an accepted START writes `SCHEME`. -/
theorem onlyStartWritesScheme : Obligations.OnlyStartWritesScheme := by
  intro s t i he h hr hch
  rcases step_word_cases he hr h with ⟨-, rfl⟩ | ⟨-, ha, ⟨sc, hcmd, rfl⟩ | ⟨d, sc, -, -, -, rfl⟩ | ⟨e, -, rfl⟩⟩
  · simp at hch
  · obtain ⟨hv, hready⟩ := accepts_iff.mp ha
    exact ⟨hv, hready, sc, hcmd, rfl⟩
  · simp at hch
  · simp at hch

/-- Settles O39: of what a cycle can do, a START sets `ACTIVE`, the error action clears it, and nothing else
writes it. -/
theorem activeIsSetByStartAndClearedByErrors : Obligations.ActiveIsSetByStartAndClearedByErrors := by
  intro s t i he h hr
  rcases step_word_cases he hr h with ⟨-, rfl⟩ | ⟨-, ha, hword⟩
  · exact ⟨fun hf ht => by simp [hf] at ht, fun ht hf => by simp [ht] at hf⟩
  · obtain ⟨hv, hready⟩ := accepts_iff.mp ha
    rcases hword with ⟨sc, hcmd, rfl⟩ | ⟨d, sc, -, hact, -, rfl⟩ | ⟨e, hcause, rfl⟩
    · exact ⟨fun _ _ => ⟨hv, hready, sc, hcmd⟩, fun _ hf => by simp at hf⟩
    · exact ⟨fun hf => by simp [hact] at hf, fun _ hf => by simp [hact] at hf⟩
    · exact ⟨fun _ ht => by simp at ht, fun _ _ => ⟨hv, hready, e, hcause⟩⟩

/-- After an accepted word samples wait exactly if it was a BIT of an open frame. -/
theorem qcnt_ne_zero_iff_of_accepts {s t : State} {i : Inputs} (he : nextEvent s = .cycle i)
    (ha : accepts s i = true) (h : step s = .next t) :
    t.qcnt ≠ 0#2 ↔ s.active = true ∧ ∃ d, i.cmd = encode (.bit d) := by
  obtain ⟨-, hr, -⟩ := accepts_eq.mp ha
  have hempty : ((s.recordCycle i).afterDelivery i).qcnt = 0#2 := qcnt_afterDelivery_of_accepts ha
  rcases step_word_cases he hr h with ⟨hno, -⟩ | ⟨-, -, ⟨sc, hcmd, rfl⟩ | ⟨d, sc, hcmd, hact, -, rfl⟩ |
    ⟨e, hcause, rfl⟩⟩
  · rw [ha] at hno
    cases hno
  · exact iff_of_false (not_not.mpr hempty) fun ⟨_, d, hd⟩ => encode_startInstr_ne_bit sc d (hcmd.symm.trans hd)
  · refine iff_of_true ?_ ⟨hact, d, hcmd⟩
    rcases encodeBit_qcnt sc d ((s.recordCycle i).afterDelivery i) with hq | hq <;> simp [hq]
  · refine iff_of_false (not_not.mpr hempty) fun ⟨hact, d, hd⟩ => ?_
    rw [hd] at hcause
    simp [not_active_of_errorCause_bit hcause] at hact

/-- Settles O41: the accepted word meets an empty queue, and only a BIT of an open frame loads it. -/
theorem onlyBitFillsTheQueue : Obligations.OnlyBitFillsTheQueue := by
  intro s t i he h _ hv hready
  have hiff := qcnt_ne_zero_iff_of_accepts he (accepts_iff.mpr ⟨hv, hready⟩) h
  exact ⟨hiff.mp, fun hq => ⟨queue_of_qcnt_zero hq, fun hbit => hiff.mpr hbit hq⟩⟩

/-! ### POL -/

/-- What a bit does to the carried level (R24): it is kept, or inverted by a 1 under NRZ-I and the AMI family or by a
0 under Differential Manchester. -/
theorem symbolMap_carried_cases (sc : Scheme) (d : Bit1) (p : Polarity) :
    (symbolMap sc d p).carried = p ∨
    ((symbolMap sc d p).carried = negPol p ∧
      ((d = 1#1 ∧ sc.code ∈ [2#4, 6#4, 7#4, 8#4]) ∨ (d = 0#1 ∧ sc.code = 5#4))) := by
  rcases bit1_cases d with rfl | rfl
  · cases sc with
    | diffManchester => exact .inr ⟨by simp, .inr ⟨rfl, rfl⟩⟩
    | _ => exact .inl (by simp)
  · cases sc with
    | nrzi | ami | b8zs | hdb3 => exact .inr ⟨by simp, .inl ⟨rfl, by decide⟩⟩
    | _ => exact .inl (by simp)

/-- Settles O40: a START writes its seed, a BIT of an open frame keeps or inverts the carried level as its scheme's
rule says, and nothing else writes `POL`. -/
theorem polIsSeededOrInverted : Obligations.PolIsSeededOrInverted := by
  intro s t i he h hr hch
  rcases step_word_cases he hr h with ⟨-, rfl⟩ | ⟨-, ha, hword⟩
  · simp at hch
  · obtain ⟨hv, hready⟩ := accepts_iff.mp ha
    refine ⟨hv, hready, ?_⟩
    rcases hword with ⟨sc, hcmd, rfl⟩ | ⟨d, sc, hcmd, hact, hs, rfl⟩ | ⟨e, -, rfl⟩
    · exact .inl ⟨sc, hcmd, rfl⟩
    · rcases symbolMap_carried_cases sc d (polVal s.pol) with hkeep | ⟨hinv, hrule⟩
      · simp [hkeep] at hch
      · refine .inr ⟨hact, by simp [hinv], ?_⟩
        rw [hcmd, hs]
        exact hrule.imp (fun ⟨hd, hsc⟩ => ⟨by rw [hd]; rfl, hsc⟩) fun ⟨hd, hsc⟩ => ⟨by rw [hd]; rfl, hsc⟩
    · simp at hch

end Sys2Proof.Machine
end

section
/-! SUPPORT. What cannot be observed (spec/10_state.md R24, R37): when two related states drive the same outputs and
take the same steps, for any relation that the operations of an edge keep, and the two relations of R37 and R24. -/

namespace Sys2Proof.Machine

/-! ### Relations that no step shows -/

/-- Two outcomes agree up to a relation: related next states, or the same refusal. -/
inductive OutcomesAgree (R : State → State → Prop) :
    Host.Outcome State Fault Refusal → Host.Outcome State Fault Refusal → Prop where
  | next {s t : State} : R s t → OutcomesAgree R (.next s) (.next t)
  | refused (r : Refusal) : OutcomesAgree R (.refused r) (.refused r)

theorem OutcomesAgree.exists_next {R : State → State → Prop} {u : State} {o : Host.Outcome State Fault Refusal}
    (h : OutcomesAgree R (.next u) o) : ∃ v, o = .next v ∧ R u v := by
  cases h with
  | next h => exact ⟨_, rfl, h⟩

theorem OutcomesAgree.eq_refused {R : State → State → Prop} {r : Refusal} {o : Host.Outcome State Fault Refusal}
    (h : OutcomesAgree R (.refused r) o) : o = .refused r := by
  cases h with
  | refused => rfl

/-- Related states agree at every port and on what comes next, and each operation of an edge keeps the
relation. -/
structure IsUnobservable (R : State → State → Prop) : Prop where
  outputs {s t : State} : R s t → ∀ i, outputs s i = outputs t i
  stimulus {s t : State} : R s t → s.stimulus = t.stimulus
  resetSeen {s t : State} : R s t → s.resetSeen = t.resetSeen
  record {s t : State} : R s t → ∀ e, R (s.record e) (t.record e)
  loseRegisters {s t : State} : R s t → R s.loseRegisters t.loseRegisters
  resetRegisters {s t : State} : R s t → R s.resetRegisters t.resetRegisters
  popQueue {s t : State} : R s t → R s.popQueue t.popQueue
  raiseError {s t : State} : R s t → ∀ e, R (s.raiseError e) (t.raiseError e)
  openFrame {s t : State} : R s t → ∀ c p, R (s.openFrame c p) (t.openFrame c p)
  execBit {s t : State} : R s t → ∀ d, OutcomesAgree R (exec (.bit d) s) (exec (.bit d) t)

namespace IsUnobservable

variable {R : State → State → Prop} {s t : State}

theorem nextEvent (hR : IsUnobservable R) (h : R s t) : nextEvent s = nextEvent t := by
  simp only [Machine.nextEvent, hR.stimulus h]

theorem recordCycle (hR : IsUnobservable R) (h : R s t) (i : Inputs) : R (s.recordCycle i) (t.recordCycle i) := by
  rw [State.recordCycle, State.recordCycle, hR.outputs h]
  exact hR.record h _

theorem outValid (hR : IsUnobservable R) (h : R s t) (i : Inputs) : outValid s i = outValid t i :=
  congrArg Outputs.outValid (hR.outputs h i)

theorem cmdReady (hR : IsUnobservable R) (h : R s t) (i : Inputs) : cmdReady s i = cmdReady t i :=
  congrArg Outputs.cmdReady (hR.outputs h i)

theorem afterDelivery (hR : IsUnobservable R) (h : R s t) (i : Inputs) :
    R (s.afterDelivery i) (t.afterDelivery i) := by
  have hd : delivers s i = delivers t i := by rw [delivers, delivers, hR.outValid h]
  cases ht : delivers t i with
  | false =>
    rw [afterDelivery_of_not_delivers (hd.trans ht), afterDelivery_of_not_delivers ht]
    exact h
  | true =>
    rw [afterDelivery_of_delivers (hd.trans ht), afterDelivery_of_delivers ht]
    exact hR.popQueue h

theorem execute (hR : IsUnobservable R) (h : R s t) (x : Decoded) :
    OutcomesAgree R (execute x s) (execute x t) := by
  cases x with
  | error e => exact .next (hR.raiseError h e)
  | command c =>
    rcases instr_cases c with ⟨d, rfl⟩ | ⟨sc, rfl⟩
    · exact hR.execBit h d
    · rw [execute_command, execute_command, exec_startInstr, exec_startInstr]
      exact .next (hR.openFrame h _ _)

theorem clockEdge (hR : IsUnobservable R) (h : R s t) (i : Inputs) :
    OutcomesAgree R (clockEdge i s) (clockEdge i t) := by
  have hhand : handshakeBeforeReset s i = handshakeBeforeReset t i := by
    rw [handshakeBeforeReset, handshakeBeforeReset, hR.resetSeen h, hR.outValid h]
  have hacc : accepts s i = accepts t i := by rw [accepts, accepts, hR.cmdReady h]
  rw [Machine.clockEdge, Machine.clockEdge, hhand, hacc]
  split_ifs
  · exact .next (hR.resetRegisters h)
  · exact .refused _
  · exact hR.execute (hR.afterDelivery h i) _
  · exact .next (hR.afterDelivery h i)

theorem step (hR : IsUnobservable R) (h : R s t) : OutcomesAgree R (step s) (step t) := by
  cases he : Machine.nextEvent s with
  | clockStop =>
    rw [step_of_clockStop he, step_of_clockStop (hR.nextEvent h ▸ he)]
    exact .next (hR.loseRegisters (hR.record h _))
  | cycle i =>
    rw [step_of_cycle he, step_of_cycle (hR.nextEvent h ▸ he)]
    exact hR.clockEdge (hR.recordCycle h i) i

/-- Related states show the same, and step to related states or are refused alike. -/
theorem observe (hR : IsUnobservable R) (h : R s t) :
    (∀ i, Machine.outputs s i = Machine.outputs t i) ∧
    (∀ u, Machine.step s = .next u → ∃ v, Machine.step t = .next v ∧ R u v) ∧
    (∀ r, Machine.step s = .refused r → Machine.step t = .refused r) :=
  ⟨hR.outputs h, fun _ hu => (hu ▸ hR.step h).exists_next, fun _ hr => (hr ▸ hR.step h).eq_refused⟩

end IsUnobservable

/-! ### Stale queue entries (R37) -/

/-- How many samples a BIT leaves is its scheme's number of samples per bit (R136, R151). -/
theorem encodeBit_qcnt_eq (sc : Scheme) (d : Bit1) (s : State) :
    (encodeBit sc d s).qcnt = BitVec.ofNat 2 (samplesPerBit sc) := by
  have hlen := length_sampleList_symbolMap sc d (polVal s.pol)
  cases hx : (symbolMap sc d (polVal s.pol)).samples with
  | single a => simp [encodeBit, hx, ← hlen]
  | pair a b => simp [encodeBit, hx, ← hlen]

/-- A pop leaves the second of two samples, and nothing otherwise (R95). -/
theorem queue_popQueue (s : State) : s.popQueue.queue = if s.qcnt = 2#2 then [s.q1] else [] := by
  by_cases h : s.qcnt = 2#2 <;> simp [State.queue, h]

section
variable {s t : State}

/-- A sample that is offered is part of the live queue. -/
theorem SameLive.q0 (h : SameLive s t) (hq : s.qcnt ≠ 0#2) : s.q0 = t.q0 := by
  have hqueue := h.queue
  simp only [State.queue, ← h.qcnt, hq, if_false] at hqueue
  split at hqueue
  · exact (List.cons.inj hqueue).1
  · exact (List.cons.inj hqueue).1

theorem SameLive.outputs (h : SameLive s t) (i : Inputs) : outputs s i = outputs t i := by
  have hv : outValid s i = outValid t i := by rw [outValid, outValid, h.qcnt]
  have hq0 (hs : outValid t i = true) : s.q0 = t.q0 := h.q0 (outValid_iff.mp (hv.trans hs)).2
  have hlevel : outLevel s i = outLevel t i := by
    rw [outLevel, outLevel, hv]
    split_ifs with hs
    · rw [hq0 hs]
    · rfl
  have hphase : outPhase s i = outPhase t i := by
    rw [outPhase, outPhase, hv]
    split_ifs with hs
    · rw [hq0 hs]
    · rfl
  simp only [Machine.outputs, cmdReady, statusBusy, hv, hlevel, hphase, h.qcnt, h.active, h.scheme, h.err]

theorem SameLive.popQueue (h : SameLive s t) : SameLive s.popQueue t.popQueue := by
  have hqueue : s.popQueue.queue = t.popQueue.queue := by
    rw [queue_popQueue, queue_popQueue, ← h.qcnt]
    split_ifs with h2
    · simpa [State.queue, ← h.qcnt, h2] using congrArg List.tail h.queue
    · rfl
  exact ⟨by simp [h.scheme], by simp [h.pol], by simp [h.active], by simp [h.qcnt], hqueue, by simp [h.err],
    by simp [h.resetSeen], by simp [h.draws], by simp [h.stimulus], by simp [h.trace]⟩

theorem SameLive.encodeBit (h : SameLive s t) (sc : Scheme) (d : Bit1) :
    SameLive (encodeBit sc d s) (encodeBit sc d t) := by
  have hqcnt : (Machine.encodeBit sc d s).qcnt = (Machine.encodeBit sc d t).qcnt := by
    rw [encodeBit_qcnt_eq, encodeBit_qcnt_eq]
  have hqueue : (Machine.encodeBit sc d s).queue = (Machine.encodeBit sc d t).queue := by
    rw [encodeBit_queue, encodeBit_queue, h.pol]
  exact ⟨by simp [h.scheme], by simp [h.pol], by simp [h.active], hqcnt, hqueue, by simp [h.err],
    by simp [h.resetSeen], by simp [h.draws], by simp [h.stimulus], by simp [h.trace]⟩

theorem SameLive.raiseError (h : SameLive s t) (e : ErrorKind) : SameLive (s.raiseError e) (t.raiseError e) :=
  ⟨h.scheme, h.pol, rfl, h.qcnt, h.queue, by simp [h.err], h.resetSeen, h.draws, h.stimulus, h.trace⟩

end

/-- The three cases of a BIT are told apart by `ACTIVE` and `SCHEME`, so it suffices that the error action and the
encoding of a bit agree. -/
theorem execBit_agrees {R : State → State → Prop} {s t : State} (ha : s.active = t.active)
    (hs : s.scheme = t.scheme) (herr : R (s.raiseError .bitOutsideFrame) (t.raiseError .bitOutsideFrame))
    {d : Bit1} (hbit : ∀ sc, s.active = true → schemeOfCode s.scheme = some sc →
      R (encodeBit sc d s) (encodeBit sc d t)) :
    OutcomesAgree R (exec (.bit d) s) (exec (.bit d) t) := by
  cases hact : s.active with
  | false =>
    rw [exec_bit_outside hact, exec_bit_outside (ha ▸ hact)]
    exact .next herr
  | true =>
    cases hc : schemeOfCode s.scheme with
    | none =>
      rw [exec_bit_unassigned hact hc, exec_bit_unassigned (ha ▸ hact) (hs ▸ hc)]
      exact .refused _
    | some sc =>
      have hcode := schemeOfCode_eq_some.mp hc
      rw [exec_bit_inside hact hcode, exec_bit_inside (ha ▸ hact) (hs ▸ hcode)]
      exact .next (hbit sc hact hc)

theorem sameLive_isUnobservable : IsUnobservable SameLive where
  outputs h := h.outputs
  stimulus h := h.stimulus
  resetSeen h := h.resetSeen
  record h e := ⟨h.scheme, h.pol, h.active, h.qcnt, h.queue, h.err, h.resetSeen, h.draws,
    congrArg List.tail h.stimulus, congrArg (· ++ [e]) h.trace⟩
  loseRegisters h := by
    simp only [State.loseRegisters, h.draws]
    exact ⟨rfl, rfl, rfl, rfl, rfl, rfl, rfl, rfl, h.stimulus, h.trace⟩
  resetRegisters h := ⟨rfl, rfl, rfl, rfl, rfl, rfl, rfl, h.draws, h.stimulus, h.trace⟩
  popQueue h := h.popQueue
  raiseError h := h.raiseError
  openFrame h _ _ := ⟨rfl, rfl, rfl, h.qcnt, h.queue, h.err, h.resetSeen, h.draws, h.stimulus, h.trace⟩
  execBit h d := execBit_agrees h.active h.scheme (h.raiseError _) fun sc _ _ => h.encodeBit sc d

/-- Settles O46: the ports and the operations of an edge read no more of the queue than its live part. -/
theorem staleEntriesAreNotObservable : Obligations.StaleEntriesAreNotObservable := fun _ _ =>
  sameLive_isUnobservable.observe

/-! ### A `POL` that no BIT reads (R24) -/

section
variable {s t : State} {b : Bit1}

theorem sameButUnreadPol_refl (s : State) : SameButUnreadPol s s := ⟨rfl, .inl rfl⟩

/-- While no BIT reads it, `POL` may be changed. -/
theorem sameButUnreadPol_of_unread (h : s.polUnread) (b : Bit1) : SameButUnreadPol s { s with pol := b } :=
  ⟨rfl, .inr h⟩

/-- The relation's two cases: equal states, or another `POL` that no BIT reads. -/
theorem SameButUnreadPol.cases (h : SameButUnreadPol s t) :
    t = s ∨ s.polUnread ∧ ∃ b, t = { s with pol := b } := by
  obtain ⟨ht, hpol | hunread⟩ := h
  · exact .inl (by rw [ht, ← hpol])
  · exact .inr ⟨hunread, _, ht⟩

/-- An operation keeps the relation if it treats `POL` as a value of its own, or overwrites it, and opens no frame
that reads it. -/
theorem SameButUnreadPol.map {f : State → State} (h : SameButUnreadPol s t)
    (hf : ∀ b, s.polUnread → SameButUnreadPol (f s) (f { s with pol := b })) : SameButUnreadPol (f s) (f t) := by
  rcases h.cases with rfl | ⟨hunread, b, rfl⟩
  · exact sameButUnreadPol_refl _
  · exact hf b hunread

/-- The rules of the stateless schemes do not read the carried level (R24, R130, R131, R152, R153). -/
theorem symbolMap_samples_of_stateless {sc : Scheme} (h : stateless sc = true) (d : Bit1) (p q : Polarity) :
    (symbolMap sc d p).samples = (symbolMap sc d q).samples := by
  cases sc with
  | unipolar | nrzl | rz | manchester => rfl
  | nrzi | diffManchester | ami | b8zs | hdb3 => cases h

/-- The rules of the stateless schemes pass the carried level on as it was. -/
theorem symbolMap_carried_of_stateless {sc : Scheme} (h : stateless sc = true) (d : Bit1) (p : Polarity) :
    (symbolMap sc d p).carried = p := by
  cases sc with
  | unipolar | nrzl | rz | manchester => rfl
  | nrzi | diffManchester | ami | b8zs | hdb3 => cases h

theorem loadSamples_withPol (x : BitSamples) (s : State) (b : Bit1) :
    State.loadSamples x { s with pol := b } = { s.loadSamples x with pol := b } := by cases x <;> rfl

theorem popQueue_withPol (s : State) (b : Bit1) :
    State.popQueue { s with pol := b } = { s.popQueue with pol := b } := by
  by_cases h : s.qcnt = 2#2
  · rw [popQueue_of_two (s := s) h]
    exact popQueue_of_two h
  · rw [popQueue_of_ne_two (s := s) h]
    exact popQueue_of_ne_two h

/-- A BIT of a stateless scheme treats `POL` as a value of its own. -/
theorem encodeBit_withPol {sc : Scheme} (h : stateless sc = true) (d : Bit1) (s : State) (b : Bit1) :
    encodeBit sc d { s with pol := b } = { encodeBit sc d s with pol := b } := by
  rw [encodeBit, encodeBit, symbolMap_samples_of_stateless h d _ (polVal s.pol), symbolMap_carried_of_stateless h,
    loadSamples_withPol, State.writePol, State.writePol, polBit_polVal]

theorem State.polUnread.stateless (h : s.polUnread) (ha : s.active = true) {sc : Scheme}
    (hc : schemeOfCode s.scheme = some sc) : stateless sc = true := by
  rcases h with hno | hall
  · simp [ha] at hno
  · exact hall sc hc

theorem SameButUnreadPol.outputs (h : SameButUnreadPol s t) (i : Inputs) : outputs s i = outputs t i := by
  rw [h.1]
  rfl

theorem SameButUnreadPol.raiseError (h : SameButUnreadPol s t) (e : ErrorKind) :
    SameButUnreadPol (s.raiseError e) (t.raiseError e) :=
  h.map fun b _ => sameButUnreadPol_of_unread (s := s.raiseError e) (.inl rfl) b

theorem SameButUnreadPol.popQueue (h : SameButUnreadPol s t) : SameButUnreadPol s.popQueue t.popQueue :=
  h.map fun b hunread => by
    rw [popQueue_withPol s b]
    exact sameButUnreadPol_of_unread (by simpa [State.polUnread] using hunread) b

theorem SameButUnreadPol.encodeBit (h : SameButUnreadPol s t) (ha : s.active = true) {sc : Scheme}
    (hc : schemeOfCode s.scheme = some sc) (d : Bit1) :
    SameButUnreadPol (encodeBit sc d s) (encodeBit sc d t) :=
  h.map fun b hunread => by
    rw [encodeBit_withPol (hunread.stateless ha hc) d s b]
    exact sameButUnreadPol_of_unread (by simpa [State.polUnread] using hunread) b

end

theorem sameButUnreadPol_isUnobservable : IsUnobservable SameButUnreadPol where
  outputs h := h.outputs
  stimulus h := by rw [h.1]
  resetSeen h := by rw [h.1]
  record {s _} h e := h.map fun b hunread => sameButUnreadPol_of_unread (s := s.record e) hunread b
  loseRegisters h := h.map fun _ _ => sameButUnreadPol_refl _
  resetRegisters h := h.map fun _ _ => sameButUnreadPol_refl _
  popQueue h := h.popQueue
  raiseError h := h.raiseError
  openFrame h _ _ := h.map fun _ _ => sameButUnreadPol_refl _
  execBit h d := execBit_agrees (by rw [h.1]) (by rw [h.1]) (h.raiseError _) fun _ ha hc => h.encodeBit ha hc d

/-- Settles O47: no port reads `POL`, and the rules of the stateless schemes neither read nor change it. -/
theorem unreadPolIsNotObservable : Obligations.UnreadPolIsNotObservable := fun _ _ =>
  sameButUnreadPol_isUnobservable.observe

end Sys2Proof.Machine
end

section
/-! SUPPORT. Runs after a reset (spec/10_state.md R28, spec/60_exceptions.md R170, R183): they keep the invariant and never
stop. -/

namespace Sys2Proof.Machine

/-- Settles O43: the lemma of every step that the runs of O44 are made of. -/
theorem stepKeepsTheInvariant : Obligations.StepKeepsTheInvariant := fun _ _ => step_keeps_inv

/-- Settles O42: after reset the queue is empty and `SCHEME` is 0. -/
theorem resetStateIsWellFormed : Obligations.ResetStateIsWellFormed := fun stim =>
  ⟨State.resetWith_inv stim, State.resetWith_inv stim rfl⟩

/-! ### No run stops -/

/-- A state that a reset leads to, whose host does not stop the clock. -/
structure State.Running (s : State) : Prop where
  inv : s.Inv
  resetSeen : s.resetSeen = true
  noStop : HostEvent.clockStop ∉ s.stimulus

section
variable {s t : State}

/-- After a reset edge nothing is refused: no handshake comes too early, and `SCHEME` has a scheme. -/
theorem step_answers (hi : s.Inv) (hseen : s.resetSeen = true) : ∃ t, step s = .next t := by
  cases h : step s with
  | next t => exact ⟨t, rfl⟩
  | fault r => cases r
  | refused r =>
    rcases step_refused_cases h with ⟨-, hno, -⟩ | ⟨-, -, i, d, -, -, -, -, hnone⟩
    · simp [hseen] at hno
    · obtain ⟨sc, hsc⟩ := schemeOfCode_of_le (hi hseen).scheme
      simp [hsc] at hnone

theorem nextEvent_ne_clockStop (h : HostEvent.clockStop ∉ s.stimulus) : nextEvent s ≠ .clockStop := by
  intro he
  cases hs : s.stimulus with
  | nil => simp [nextEvent, hs] at he
  | cons e es =>
    rw [nextEvent_of_stimulus hs] at he
    simp [hs, he] at h

/-- Only a stop of the clock makes the block forget that it was reset. -/
theorem step_keeps_resetSeen (hseen : s.resetSeen = true) (hstop : nextEvent s ≠ .clockStop)
    (h : step s = .next t) : t.resetSeen = true := by
  rcases step_next_cases h with ⟨he, -⟩ | ⟨i, -, ⟨-, rfl⟩ | ⟨-, hs, -⟩ | ⟨-, -, -, rfl⟩ | ⟨-, -, -, hx⟩⟩
  · exact absurd he hstop
  · rfl
  · simp [hseen] at hs
  · simpa using hseen
  · rcases execute_next_cases hx with ⟨sc, -, rfl⟩ | ⟨d, sc, -, -, -, rfl⟩ | ⟨e, -, rfl⟩ <;> simpa using hseen

theorem State.Running.of_step (hs : s.Running) (h : step s = .next t) : t.Running where
  inv := step_keeps_inv hs.inv h
  resetSeen := step_keeps_resetSeen hs.resetSeen (nextEvent_ne_clockStop hs.noStop) h
  noStop hmem := by
    rw [(step_bookkeeping h).1] at hmem
    exact hs.noStop (List.mem_of_mem_tail hmem)

theorem State.Running.exists_step (hs : s.Running) : ∃ t, step s = .next t ∧ t.Running := by
  obtain ⟨t, h⟩ := step_answers hs.inv hs.resetSeen
  exact ⟨t, h, hs.of_step h⟩

theorem State.Running.exists_run (hs : s.Running) (k : Nat) : ∃ t, run k s = .next t ∧ t.Running := by
  induction k generalizing s with
  | zero => exact ⟨s, rfl, hs⟩
  | succ k ih =>
    obtain ⟨u, hstep, hu⟩ := hs.exists_step
    rw [run_succ_of_step hstep]
    exact ih hu

theorem State.resetWith_running {stim : List HostEvent} (h : HostEvent.clockStop ∉ stim) :
    (State.resetWith stim).Running := ⟨State.resetWith_inv stim, rfl, h⟩

end

/-- Settles O45: a step after reset is never refused, and what makes it so is kept while the clock runs. -/
theorem theBlockNeverStops : Obligations.TheBlockNeverStops := by
  refine ⟨fun s => step_answers, fun stim k hstop => ?_⟩
  obtain ⟨t, hrun, ht⟩ := (State.resetWith_running hstop).exists_run k
  exact ⟨t, hrun, ht.resetSeen⟩

end Sys2Proof.Machine
end

section
/-! SUPPORT. Hosts that take a sample in every cycle (spec/40_pipeline.md section 3, spec/70_reset_and_hazards.md R208,
R209): what one such cycle does, the drained queue, and the timing of a frame cycle by cycle. -/

namespace Sys2Proof.Machine

/-! ### Runs cycle by cycle -/

/-- A run of `k` cycles without reset from `s` to `t`, with the word accepted and the sample delivered in each. -/
structure QuietRun (k : Nat) (s t : State) (words : List (Option CmdWord)) (samples : List (Option SampleWord))
    (tr : List TraceEntry) : Prop where
  ran : run k s = .next t
  seen : t.trace = s.trace ++ tr
  quiet : ∀ e ∈ tr, e.quiet = true
  words : tr.map TraceEntry.accepted = words
  samples : tr.map TraceEntry.delivered = samples

section
variable {k : Nat} {s t u : State} {i : Inputs} {words : List (Option CmdWord)} {samples : List (Option SampleWord)}
  {tr : List TraceEntry}

theorem QuietRun.refl (s : State) : QuietRun 0 s s [] [] [] :=
  ⟨rfl, (List.append_nil _).symm, by simp, rfl, rfl⟩

/-- A first cycle and a run after it are a run. -/
theorem QuietRun.cons (he : nextEvent s = .cycle i) (hr : i.rst = false) (hstep : step s = .next u)
    (h : QuietRun k u t words samples tr) :
    QuietRun (k + 1) s t ((TraceEntry.edge i (outputs s i)).accepted :: words)
      ((TraceEntry.edge i (outputs s i)).delivered :: samples) (.edge i (outputs s i) :: tr) where
  ran := by rw [run_succ_of_step hstep, h.ran]
  seen := by
    rw [h.seen, (step_bookkeeping hstep).2, stepEntry_of_cycle he, List.append_assoc]
    rfl
  quiet := List.forall_mem_cons.mpr ⟨by simp [TraceEntry.quiet, hr], h.quiet⟩
  words := by rw [List.map_cons, h.words]
  samples := by rw [List.map_cons, h.samples]

theorem QuietRun.acceptedWords (h : QuietRun k s t words samples tr) : acceptedWords tr = words.reduceOption := by
  rw [← h.words, List.reduceOption, List.filterMap_map]
  rfl

theorem QuietRun.deliveredSamples (h : QuietRun k s t words samples tr) :
    deliveredSamples tr = samples.reduceOption := by
  rw [← h.samples, List.reduceOption, List.filterMap_map]
  rfl

end

/-! ### A cycle that takes a sample -/

section
variable {s : State} {i : Inputs} {later : List HostEvent}

/-- The live queue has as many samples as `QCNT` says. -/
theorem length_queue (h3 : s.qcnt ≠ 3#2) : s.queue.length = s.qcnt.toNat := by
  have hcases : ∀ q : QueueCount, q ≠ 3#2 → q = 0#2 ∨ q = 1#2 ∨ q = 2#2 := by decide
  rcases hcases _ h3 with h | h | h <;> simp [State.queue, h]

theorem queue_eq_nil_iff : s.queue = [] ↔ s.qcnt = 0#2 := by
  unfold State.queue
  split_ifs <;> simp [*]

theorem State.queue_length_le (s : State) : s.queue.length ≤ 2 := by
  unfold State.queue
  split_ifs <;> simp

/-- The queue's at most two samples, taken one by one. -/
theorem State.reduceOption_queue (s : State) : [s.queue.head?, s.queue.tail.head?].reduceOption = s.queue := by
  unfold State.queue
  split_ifs <;> simp [List.reduceOption]

/-- A cycle ready to take a sample delivers the head of the queue, if there is one (R95). -/
theorem edge_delivered_of_outReady (hr : i.rst = false) (ho : i.outReady = true) :
    (TraceEntry.edge i (outputs s i)).delivered = s.queue.head? := by
  rw [edge_delivered]
  by_cases h0 : s.qcnt = 0#2
  · simp [delivers, outValid, h0, queue_of_qcnt_zero h0]
  · rw [if_pos (delivers_eq.mpr ⟨hr, h0, ho⟩), State.queue, if_neg h0]
    split_ifs <;> rfl

/-- What waits after it is the rest of the queue. -/
theorem queue_afterDelivery_of_outReady (h3 : s.qcnt ≠ 3#2) (hr : i.rst = false) (ho : i.outReady = true) :
    (s.afterDelivery i).queue = s.queue.tail := by
  have hdel := edge_delivered_append_queue (i := i) h3
  rw [edge_delivered_of_outReady hr ho] at hdel
  cases hq : s.queue with
  | nil => simpa [hq] using hdel
  | cons x xs => simpa [hq] using hdel

/-- A word offered while at most one sample waits is accepted (R92). -/
theorem accepts_of_length_le (h3 : s.qcnt ≠ 3#2) (hlen : s.queue.length ≤ 1) (hr : i.rst = false)
    (hv : i.cmdValid = true) (ho : i.outReady = true) : accepts s i = true := by
  have hcases : ∀ q : QueueCount, q.toNat ≤ 1 → q = 0#2 ∨ q = 1#2 := by decide
  rw [length_queue h3] at hlen
  exact accepts_eq.mpr ⟨hv, hr, (hcases _ hlen).imp_right fun h => ⟨h, ho⟩⟩

end

/-- A run of `k` cycles without reset empties the queue, with the words accepted and the samples delivered cycle by
cycle, and leaves the host with `later`. -/
def Yields (s : State) (k : Nat) (words : List (Option CmdWord)) (samples : List (Option SampleWord))
    (later : List HostEvent) : Prop :=
  ∃ t tr, QuietRun k s t words samples tr ∧ t.stimulus = later ∧ t.qcnt = 0#2

theorem yields_refl {s : State} (hq : s.queue = []) : Yields s 0 [] [] s.stimulus :=
  ⟨s, [], .refl s, rfl, queue_eq_nil_iff.mp hq⟩

/-- The host takes a sample in the next cycle, whose inputs are `i`, after a reset edge. -/
structure State.Takes (s : State) (i : Inputs) (later : List HostEvent) : Prop where
  stimulus : s.stimulus = .cycle i :: later
  rst : i.rst = false
  outReady : i.outReady = true
  resetSeen : s.resetSeen = true
  queueCount : s.qcnt ≠ 3#2

namespace State.Takes

variable {s u : State} {i : Inputs} {later fin : List HostEvent} {k : Nat} {words : List (Option CmdWord)}
  {samples : List (Option SampleWord)}

theorem nextEvent (h : s.Takes i later) : nextEvent s = .cycle i := nextEvent_of_stimulus h.stimulus

theorem queue_afterDelivery (h : s.Takes i later) : ((s.recordCycle i).afterDelivery i).queue = s.queue.tail :=
  queue_afterDelivery_of_outReady (s := s.recordCycle i) h.queueCount h.rst h.outReady

theorem stimulus_afterDelivery (h : s.Takes i later) :
    ((s.recordCycle i).afterDelivery i).stimulus = later := by simp [h.stimulus]

/-- The cycle after one that accepts nothing. -/
theorem afterDelivery {j : Inputs} (h : s.Takes i (.cycle j :: later)) (hr : j.rst = false) (ho : j.outReady = true) :
    ((s.recordCycle i).afterDelivery i).Takes j later :=
  ⟨h.stimulus_afterDelivery, hr, ho, by simpa using h.resetSeen,
    qcnt_afterDelivery_ne_three (s := s.recordCycle i) h.queueCount⟩

/-- What is yielded after the cycle's step is yielded from its start, with the head of the queue delivered first. -/
theorem yields_of_step (h : s.Takes i later) (hstep : step s = .next u) (hy : Yields u k words samples fin) :
    Yields s (k + 1) ((if accepts s i then some i.cmd else none) :: words) (s.queue.head? :: samples) fin := by
  obtain ⟨t, tr, hrun, hdone⟩ := hy
  have hcons := hrun.cons h.nextEvent h.rst hstep
  rw [edge_accepted, edge_delivered_of_outReady h.rst h.outReady] at hcons
  exact ⟨t, _, hcons, hdone⟩

/-- A cycle that accepts nothing. -/
theorem yields_of_not_accepts (h : s.Takes i later) (hno : accepts s i = false)
    (hy : Yields ((s.recordCycle i).afterDelivery i) k words samples fin) :
    Yields s (k + 1) (none :: words) (s.queue.head? :: samples) fin := by
  have hstep := h.yields_of_step (step_of_not_accepts h.nextEvent h.resetSeen h.rst hno) hy
  rwa [hno] at hstep

end State.Takes

/-- The inputs of `offerWord`. -/
def offerInputs (w : CmdWord) : Inputs := ⟨false, true, w, true⟩

@[simp] theorem offerInputs_cmd (w : CmdWord) : (offerInputs w).cmd = w := rfl

/-! ### The queue drains -/

/-- The inputs of `takeOnly`. -/
def takeInputs : Inputs := ⟨false, false, 0#5, true⟩

/-- A last cycle that takes the sample that waits, if one does, and offers no word. -/
theorem State.Takes.yields_last {s : State} {later : List HostEvent} (h : s.Takes takeInputs later)
    (hlen : s.queue.length ≤ 1) : Yields s 1 [none] [s.queue.head?] later := by
  refine h.yields_of_not_accepts rfl ?_
  rw [← h.stimulus_afterDelivery]
  refine yields_refl ?_
  rw [h.queue_afterDelivery, ← List.length_eq_zero_iff, List.length_tail]
  omega

/-- Two cycles that take samples and offer no word deliver the whole queue. -/
theorem yields_takeOnly_twice {s : State} {later : List HostEvent} (h3 : s.qcnt ≠ 3#2) (hseen : s.resetSeen = true)
    (hs : s.stimulus = takeOnly :: takeOnly :: later) :
    Yields s 2 [none, none] [s.queue.head?, s.queue.tail.head?] later := by
  have h : s.Takes takeInputs (takeOnly :: later) := ⟨hs, rfl, rfl, hseen, h3⟩
  refine h.yields_of_not_accepts rfl ?_
  rw [← h.queue_afterDelivery]
  refine (h.afterDelivery rfl rfl).yields_last ?_
  have hlen := s.queue_length_le
  rw [h.queue_afterDelivery, List.length_tail]
  omega

/-- Settles O56: the ports' formulas, and two cycles that take the queue's at most two samples. -/
theorem theQueueDrains : Obligations.TheQueueDrains := by
  refine ⟨fun s i hr => ⟨fun hq => outValid_iff.mpr ⟨hr, hq⟩, fun hq => cmdReady_iff.mpr ⟨hr, .inl hq⟩⟩, ?_⟩
  intro s later hinv hseen hs
  obtain ⟨t, tr, hrun, -, hq⟩ := yields_takeOnly_twice (hinv hseen).queueCount hseen hs
  refine ⟨t, tr, hrun.ran, hrun.seen, hq, ?_⟩
  rw [hrun.deliveredSamples]
  exact s.reduceOption_queue

/-! ### The timing of a frame -/

/-- A frame of `sc` is open after a reset edge, with carried level `p`, the samples `q` waiting and the host's cycles to
come. -/
structure State.Serves (sc : Scheme) (p : Polarity) (q : List SampleWord) (stim : List HostEvent) (s : State) : Prop
    where
  inFrame : s.InFrame sc p
  queue : s.queue = q
  resetSeen : s.resetSeen = true
  stimulus : s.stimulus = stim

/-- The two cycles of a bit of a dual-sample frame: the BIT, and one with a `cmd_valid` and `cmd` of its own. -/
def bitAndSlot (x : Bit1 × Bool × CmdWord) : List HostEvent :=
  [offerWord (encode (.bit x.1)), .cycle ⟨false, x.2.1, x.2.2, true⟩]

namespace State.Serves

variable {s : State} {sc : Scheme} {p : Polarity} {q : List SampleWord} {i : Inputs} {d : Bit1}
  {later fin : List HostEvent} {k : Nat} {words : List (Option CmdWord)} {samples : List (Option SampleWord)}

theorem takes (h : s.Serves sc p q (.cycle i :: later)) (hr : i.rst = false) (ho : i.outReady = true) :
    s.Takes i later := ⟨h.stimulus, hr, ho, h.resetSeen, h.inFrame.queueCount⟩

/-- The last cycle of a frame, in which no word is offered. -/
theorem yields_last (h : s.Serves sc p q (takeOnly :: later)) (hlen : q.length ≤ 1) :
    Yields s 1 [none] [q.head?] later := by
  rw [← h.queue] at hlen ⊢
  exact (h.takes rfl rfl).yields_last hlen

/-- A cycle that offers a BIT while at most one sample waits: its samples become the queue. -/
theorem yields_bit (h : s.Serves sc p q (offerWord (encode (.bit d)) :: later)) (hlen : q.length ≤ 1)
    (hy : ∀ u : State, u.Serves sc (symbolMap sc d p).carried ((sampleList (symbolMap sc d p).samples).map sampleWord)
      later → Yields u k words samples fin) :
    Yields s (k + 1) (some (encode (.bit d)) :: words) (q.head? :: samples) fin := by
  have htakes : s.Takes (offerInputs (encode (.bit d))) later := h.takes rfl rfl
  have ha := accepts_of_length_le (i := offerInputs (encode (.bit d))) htakes.queueCount (by rwa [h.queue]) rfl rfl rfl
  have hframe := (h.inFrame.segment_afterDelivery (offerInputs (encode (.bit d)))).inFrame
  have hbit := (hframe.segment_encodeBit (qcnt_afterDelivery_of_accepts ha) d).inFrame
  have hstep := step_of_accepts htakes.nextEvent h.resetSeen ha
  rw [offerInputs_cmd, decode_encode_bit, execute_command, exec_bit_inside hframe.active hframe.scheme] at hstep
  have hyields := htakes.yields_of_step hstep
    (hy _ ⟨hbit, by simp [h.inFrame.pol], by simpa using h.resetSeen, by simp [h.stimulus]⟩)
  rwa [if_pos ha, h.queue] at hyields

/-- A cycle that is ready for a sample while two wait: no word is accepted. -/
theorem yields_slot (h : s.Serves sc p q (.cycle i :: later)) (hr : i.rst = false) (ho : i.outReady = true)
    (hlen : q.length = 2) (hy : ∀ u : State, u.Serves sc p q.tail later → Yields u k words samples fin) :
    Yields s (k + 1) (none :: words) (q.head? :: samples) fin := by
  have htakes := h.takes hr ho
  have hq2 : s.qcnt = 2#2 := by
    rw [← h.queue, length_queue h.inFrame.queueCount] at hlen
    exact BitVec.eq_of_toNat_eq hlen
  have hyields := htakes.yields_of_not_accepts (accepts_of_not_cmdReady (cmdReady_of_qcnt_two hq2 i))
    (hy _ ⟨(h.inFrame.segment_afterDelivery i).inFrame, by rw [htakes.queue_afterDelivery, h.queue],
      by simpa using h.resetSeen, htakes.stimulus_afterDelivery⟩)
  rwa [h.queue] at hyields

/-- With single samples every cycle takes a bit and delivers the sample of the bit before it. -/
theorem yields_single {bits : List Bit1} (h1 : samplesPerBit sc = 1) (hlen : q.length ≤ 1)
    (h : s.Serves sc p q (bits.map (fun d => offerWord (encode (.bit d))) ++ takeOnly :: later)) :
    Yields s (bits.length + 1) (bits.map (fun d => some (encode (.bit d))) ++ [none])
      (q.head? :: (lineSamplesFrom sc p bits).map (some <| sampleWord ·)) later := by
  induction bits generalizing s p q with
  | nil => exact h.yields_last hlen
  | cons d bits ih =>
    obtain ⟨x, hx⟩ := List.length_eq_one_iff.mp ((length_sampleList_symbolMap sc d p).trans h1)
    refine h.yields_bit hlen fun u hu => ?_
    simpa [lineSamplesFrom, hx] using ih (by simp [hx]) hu

/-- With pairs every second cycle takes a bit, and delivers the last sample of the bit before it; the cycle after it
delivers the bit's first sample and takes no word. -/
theorem yields_dual {slots : List (Bit1 × Bool × CmdWord)} (h2 : samplesPerBit sc = 2) (hlen : q.length ≤ 1)
    (h : s.Serves sc p q (slots.flatMap bitAndSlot ++ takeOnly :: later)) :
    Yields s (2 * slots.length + 1) ((slots.map Prod.fst).flatMap (fun d => [some (encode (.bit d)), none]) ++ [none])
      (q.head? :: (lineSamplesFrom sc p (slots.map Prod.fst)).map (some <| sampleWord ·)) later := by
  induction slots generalizing s p q with
  | nil => exact h.yields_last hlen
  | cons x slots ih =>
    obtain ⟨y, z, hyz⟩ := List.length_eq_two.mp ((length_sampleList_symbolMap sc x.1 p).trans h2)
    have hbit := h.yields_bit hlen fun u hu =>
      hu.yields_slot rfl rfl (by simp [h2]) fun v hv => ih (by simp [h2]) hv
    simpa [lineSamplesFrom, hyz, Nat.mul_succ] using hbit

end State.Serves

/-- A frame whose START is offered on an empty queue: what it yields from there on makes a `FrameRun`. -/
theorem exists_frameRun {sc : Scheme} {bits : List Bit1} {s : State} {k : Nat} {words : List (Option CmdWord)}
    {samples : List (Option SampleWord)} {stim later : List HostEvent} (hseen : s.resetSeen = true)
    (hq : s.qcnt = 0#2) (hs : s.stimulus = offerWord (encode (startInstr sc)) :: stim)
    (hwords : words.reduceOption = bits.map fun d => encode (.bit d))
    (hy : ∀ u : State, u.Serves sc (seed sc) [] stim → Yields u k words samples later) :
    ∃ t opening rest, FrameRun sc bits (k + 1) s t opening rest ∧ t.stimulus = later ∧ t.qcnt = 0#2 ∧
      rest.map TraceEntry.accepted = words ∧ rest.map TraceEntry.delivered = samples := by
  have he : nextEvent s = .cycle (offerInputs (encode (startInstr sc))) := nextEvent_of_stimulus hs
  have ha : accepts s (offerInputs (encode (startInstr sc))) = true := accepts_eq.mpr ⟨rfl, rfl, .inl hq⟩
  have hstep := step_of_accepts he hseen ha
  rw [offerInputs_cmd, decode_encode_startInstr, execute_command, exec_startInstr] at hstep
  obtain ⟨hframe, hqueue, -⟩ := openFrame_afterDelivery_of_accepts ha sc
  obtain ⟨t, tr, hrun, hstim, hdone⟩ := hy _ ⟨hframe, hqueue, by simpa using hseen, by simp [hs]⟩
  have hcons := hrun.cons he rfl hstep
  exact ⟨t, _, tr, ⟨hcons.ran, hcons.seen, by rw [edge_accepted, if_pos ha, offerInputs_cmd], hrun.quiet,
    hrun.acceptedWords.trans hwords⟩, hstim, hdone, hrun.words, hrun.samples⟩

/-- Settles O54: START, and then the cycles of a single-sample frame. -/
theorem singleSampleFrameTiming : Obligations.SingleSampleFrameTiming := by
  intro sc bits s later h1 hseen hq hs
  refine exists_frameRun (stim := bits.map (fun d => offerWord (encode (.bit d))) ++ takeOnly :: later) hseen hq ?_ ?_
    fun u hu => hu.yields_single h1 (by simp)
  · simp [hs, backToBack, frameWords]
  · simp [List.reduceOption]

/-- Settles O55: START, and then the cycles of a dual-sample frame. -/
theorem dualSampleFrameTiming : Obligations.DualSampleFrameTiming := by
  rintro sc slots _ s later rfl h2 hseen hq hs
  rw [List.length_map]
  refine exists_frameRun (stim := slots.flatMap bitAndSlot ++ takeOnly :: later) hseen hq ?_ ?_
    fun u hu => hu.yields_dual h2 (by simp)
  · rw [hs, everySecondCycle, List.flatMap_map, List.cons_append, List.cons_append, List.append_assoc]
    rfl
  · simp [List.reduceOption, List.filterMap_flatMap, List.map_eq_flatMap]

end Sys2Proof.Machine
end

section
/-! SUPPORT. The observation of a run (spec/40_pipeline.md R102): the run that has ended, the frames and the status that
a run from reset shows, and its end. -/

namespace Sys2Proof.Machine

/-! ### Hosts that drive cycles without reset -/

/-- The host drives only cycles, none of them a reset cycle. -/
def QuietHost (stim : List HostEvent) : Prop := ∀ e ∈ stim, ∃ i, e = HostEvent.cycle i ∧ i.rst = false

section
variable {s t : State} {stim : List HostEvent}

theorem QuietHost.noStop (h : QuietHost stim) : HostEvent.clockStop ∉ stim := fun hmem => by
  obtain ⟨i, hi, -⟩ := h _ hmem
  cases hi

theorem QuietHost.of_step (hhost : QuietHost s.stimulus) (h : step s = .next t) : QuietHost t.stimulus := by
  rw [(step_bookkeeping h).1]
  exact fun e he => hhost e (List.mem_of_mem_tail he)

/-- The next event is idle or the first of the stimulus. -/
theorem nextEvent_mem (s : State) : nextEvent s = .cycle idleInputs ∨ nextEvent s ∈ s.stimulus := by
  unfold nextEvent
  split <;> simp_all

theorem QuietHost.exists_cycle (hhost : QuietHost s.stimulus) : ∃ i, nextEvent s = .cycle i ∧ i.rst = false := by
  rcases nextEvent_mem s with he | he
  · exact ⟨idleInputs, he, rfl⟩
  · exact hhost _ he

theorem QuietHost.quiet_stepEntry (hhost : QuietHost s.stimulus) : (stepEntry s).quiet = true := by
  obtain ⟨i, he, hr⟩ := hhost.exists_cycle
  simp [stepEntry_of_cycle he, TraceEntry.quiet, hr]

/-! ### A run that has ended (R102) -/

@[simp] theorem acceptedWords_nil : acceptedWords [] = [] := rfl
@[simp] theorem deliveredSamples_nil : deliveredSamples [] = [] := rfl

theorem acceptedWords_append (a b : List TraceEntry) : acceptedWords (a ++ b) = acceptedWords a ++ acceptedWords b :=
  List.filterMap_append

theorem deliveredSamples_append (a b : List TraceEntry) :
    deliveredSamples (a ++ b) = deliveredSamples a ++ deliveredSamples b := List.filterMap_append

theorem State.runEnded.of_step (hend : s.runEnded) (h : step s = .next t) (hq : t.qcnt = 0#2) : t.runEnded := by
  refine ⟨hq, fun i hi => hend.2 i (List.mem_of_mem_tail ?_)⟩
  rwa [← (step_bookkeeping h).1]

/-- A cycle of an ended run only adds an entry to the trace, which shows nothing. -/
theorem step_of_runEnded (hend : s.runEnded) (hhost : QuietHost s.stimulus) (h : step s = .next t) :
    ∃ i, t = s.recordCycle i ∧ nextEvent s = .cycle i ∧ accepts s i = false ∧ delivers s i = false := by
  obtain ⟨hq, hoffers⟩ := hend
  obtain ⟨i, he, hr⟩ := hhost.exists_cycle
  have hv : i.cmdValid = false := by
    rcases nextEvent_mem s with hidle | hmem
    · rw [he] at hidle
      cases hidle
      rfl
    · exact hoffers i (he ▸ hmem)
  have ha : accepts s i = false := by simp [accepts, hv]
  have hd : delivers s i = false := by simp [delivers, outValid, hq]
  rcases step_cycle_cases he hr h with ⟨-, rfl⟩ | ⟨-, hyes, -⟩
  · exact ⟨i, afterDelivery_of_not_delivers hd, he, ha, hd⟩
  · rw [ha] at hyes
    cases hyes

/-- Since `s` the block has held its registers in an ended run and has shown nothing. -/
structure HeldSince (s u : State) : Prop where
  ended : u.runEnded
  host : QuietHost u.stimulus
  registers : u = { s with stimulus := u.stimulus, trace := u.trace }
  seen : ∃ tr, u.trace = s.trace ++ tr ∧ tr.all TraceEntry.quiet = true ∧ acceptedWords tr = [] ∧
    deliveredSamples tr = []

theorem HeldSince.of_step {u : State} (hu : HeldSince s u) (h : step u = .next t) : HeldSince s t := by
  obtain ⟨tr, htr, hquiet, hwords, hsamples⟩ := hu.seen
  obtain ⟨i, rfl, he, ha, hd⟩ := step_of_runEnded hu.ended hu.host h
  have hentry : (TraceEntry.edge i (outputs u i)).quiet = true := stepEntry_of_cycle he ▸ hu.host.quiet_stepEntry
  refine ⟨hu.ended.of_step h hu.ended.1, hu.host.of_step h, ?_, tr ++ [.edge i (outputs u i)], ?_, ?_, ?_, ?_⟩
  · rw [State.recordCycle, State.record, hu.registers]
  · simp [htr]
  · simp [hquiet, hentry]
  · simp [acceptedWords_append, hwords, ha]
  · simp [deliveredSamples_append, hsamples, hd]

/-- A run of `k` steps adds `k` entries to the trace. -/
theorem length_trace_of_run {k : Nat} (h : run k s = .next t) : t.trace.length = s.trace.length + k := by
  induction k generalizing s with
  | zero =>
    cases h
    rfl
  | succ k ih =>
    obtain ⟨u, hstep, hrun⟩ := run_succ_eq_next.mp h
    rw [ih hrun, (step_bookkeeping hstep).2, List.length_append, List.length_singleton]
    omega

end

/-- Settles O57: every cycle of an ended run holds the registers and shows nothing. -/
theorem anEndedRunStaysEnded : Obligations.AnEndedRunStaysEnded := by
  intro k s t _ hend hhost h
  have hheld : HeldSince s t := run_keeps (P := HeldSince s) HeldSince.of_step
    ⟨hend, hhost, rfl, [], (List.append_nil _).symm, rfl, rfl, rfl⟩ h
  obtain ⟨tr, htr, hquiet, hwords, hsamples⟩ := hheld.seen
  have hlen : tr.length = k := by
    have := length_trace_of_run h
    rw [htr, List.length_append] at this
    omega
  refine ⟨hheld.ended, hheld.registers, ?_, tr, htr, hlen, hwords, hsamples⟩
  rw [State.observation, State.observation, htr, sinceReset_append hquiet, splitFrames_append hwords hsamples,
    hheld.registers]

/-! ### The frames that a run shows (R102, R120) -/

/-- The samples that further BITs will add to the open frame: none if no frame is open. -/
def openSamples (s : State) (bits : List Bit1) : List SampleWord :=
  match s.active, schemeOfCode s.scheme with
  | true, some sc => (lineSamplesFrom sc (polVal s.pol) bits).map sampleWord
  | _, _ => []

section
variable {s u : State} {sc : Scheme} {bits : List Bit1}

theorem openSamples_of_active (ha : s.active = true) (hs : s.scheme = sc.code) :
    openSamples s bits = (lineSamplesFrom sc (polVal s.pol) bits).map sampleWord := by
  simp [openSamples, ha, hs]

theorem openSamples_of_not_active (ha : s.active = false) : openSamples s bits = [] := by simp [openSamples, ha]

@[simp] theorem openSamples_nil : openSamples s [] = [] := by
  unfold openSamples
  split <;> rfl

theorem openSamples_congr (ha : u.active = s.active) (hs : u.scheme = s.scheme) (hp : u.pol = s.pol) :
    openSamples u bits = openSamples s bits := by
  simp only [openSamples, ha, hs, hp]

/-- A BIT's samples come before those of the BITs after it. -/
theorem producedSamples_append_openSamples (ha : s.active = true) (hs : s.scheme = sc.code) (d : Bit1)
    (hua : u.active = s.active) (hus : u.scheme = s.scheme) (hup : u.pol = s.pol) :
    producedSamples s (encode (.bit d)) ++ openSamples (encodeBit sc d u) bits = openSamples s (d :: bits) := by
  rw [producedSamples_bit ha hs, openSamples_of_active ha hs,
    openSamples_of_active (sc := sc) (by simp [hua, ha]) (by simp [hus, hs]), encodeBit_pol, hup, polVal_polBit,
    lineSamplesFrom, List.map_append]

/-- The frame seen for a frame sent: its line code. -/
def lineFrame (f : Scheme × List Bit1) : SeenFrame := ⟨f.1, (lineSamples f.1 f.2).map sampleWord⟩

theorem splitFrames_cons_of_not_opens {e : TraceEntry} (h : e.accepted.bind wordOpens = none) (es : List TraceEntry) :
    splitFrames (e :: es) = (e.delivered.toList ++ (splitFrames es).1, (splitFrames es).2) := by
  simp [splitFrames, h]

theorem splitFrames_cons_of_opens {e : TraceEntry} (h : e.accepted.bind wordOpens = some sc) (es : List TraceEntry) :
    splitFrames (e :: es) = (e.delivered.toList, ⟨sc, (splitFrames es).1⟩ :: (splitFrames es).2) := by
  simp [splitFrames, h]

theorem sentFrames_cons_start (ws : List CmdWord) : sentFrames (encode (startInstr sc) :: ws) =
    ([], (sc, (sentFrames ws).1) :: (sentFrames ws).2) := by simp [sentFrames]

theorem sentFrames_cons_bit (d : Bit1) (ws : List CmdWord) : sentFrames (encode (.bit d) :: ws) =
    (d :: (sentFrames ws).1, (sentFrames ws).2) := by simp [sentFrames]

/-- A word with the cause of an error opens no frame, and what is sent up to the next START adds no samples. -/
theorem sentFrames_cons_of_errorCause {w : CmdWord} {e : ErrorKind} (h : ErrorCause s w e) (ws : List CmdWord) :
    wordOpens w = none ∧ openSamples s (sentFrames (w :: ws)).1 = [] ∧
      (sentFrames (w :: ws)).2 = (sentFrames ws).2 := by
  rcases errorCause_iff.mp h with hd | ⟨-, ha, d, hd⟩
  · simp [sentFrames, wordOpens, wordBit, hd]
  · rw [eq_encode_of_decode hd, sentFrames_cons_bit]
    exact ⟨wordOpens_bit d, openSamples_of_not_active ha, rfl⟩

/-- What a run from `s` shows when it accepts the words `ws` and leaves no sample waiting: the samples that waited and
those of the open frame's BITs, and then the frames sent, each with its line code. -/
def framesFrom (s : State) (ws : List CmdWord) : List SampleWord × List SeenFrame :=
  (s.queue ++ openSamples s (sentFrames ws).1, (sentFrames ws).2.map lineFrame)

/-- A cycle shows its delivery and the accepted word's part of what is sent. -/
theorem splitFrames_cons_of_step {i : Inputs} {es : List TraceEntry} {ws : List CmdWord} (h3 : s.qcnt ≠ 3#2)
    (he : nextEvent s = .cycle i) (hr : i.rst = false) (h : step s = .next u)
    (hrest : splitFrames es = framesFrom u ws) :
    splitFrames (.edge i (outputs s i) :: es) =
      framesFrom s ((TraceEntry.edge i (outputs s i)).accepted.toList ++ ws) := by
  have hcons := step_conserves_samples h3 he hr h
  rcases step_word_cases he hr h with ⟨ha, rfl⟩ | ⟨-, ha, hword⟩
  · have hacc : (TraceEntry.edge i (outputs s i)).accepted = none := by simp [ha]
    rw [hacc, Option.toList_none, List.flatMap_nil, List.append_nil] at hcons
    rw [splitFrames_cons_of_not_opens (by rw [hacc]; rfl), hrest, hacc, framesFrom, framesFrom, ← List.append_assoc,
      hcons, openSamples_congr (s := s) (by simp) (by simp) (by simp)]
    rfl
  · have hacc : (TraceEntry.edge i (outputs s i)).accepted = some i.cmd := by simp [ha]
    have hempty : ((s.recordCycle i).afterDelivery i).qcnt = 0#2 := qcnt_afterDelivery_of_accepts ha
    rw [hacc, Option.toList_some, List.flatMap_singleton] at hcons
    rw [hacc, Option.toList_some, List.singleton_append]
    rcases hword with ⟨sc, hcmd, rfl⟩ | ⟨d, sc, hcmd, hact, hsc, rfl⟩ | ⟨e, hcause, rfl⟩
    · have hqueue := queue_of_qcnt_zero (s := ((s.recordCycle i).afterDelivery i).openFrame sc.code (seed sc)) hempty
      rw [hcmd, producedSamples_start, hqueue, List.append_nil, List.append_nil] at hcons
      rw [splitFrames_cons_of_opens (sc := sc) (by rw [hacc, hcmd]; simp), hrest, framesFrom, framesFrom, hcmd,
        sentFrames_cons_start, hqueue, hcons, openSamples_of_active (sc := sc) rfl rfl]
      simp [lineFrame, lineSamples]
    · rw [hcmd] at hcons
      rw [splitFrames_cons_of_not_opens (by rw [hacc, hcmd]; simp), hrest, framesFrom, framesFrom, hcmd,
        sentFrames_cons_bit, ← List.append_assoc, hcons, List.append_assoc,
        producedSamples_append_openSamples hact hsc d (by simp) (by simp) (by simp)]
    · have hqueue := queue_of_qcnt_zero (s := ((s.recordCycle i).afterDelivery i).raiseError e) hempty
      obtain ⟨hopens, hbits, hframes⟩ := sentFrames_cons_of_errorCause hcause ws
      rw [producedSamples_of_errorCause hcause, hqueue, List.append_nil, List.append_nil] at hcons
      rw [splitFrames_cons_of_not_opens (by rw [hacc]; exact hopens), hrest, framesFrom, framesFrom, hcons, hqueue,
        openSamples_of_not_active rfl, hbits, hframes, List.append_nil]

end

/-- A run from a running state with a quiet host shows the frames sent from there on. -/
theorem splitFrames_of_run {k : Nat} {s t : State} {tr : List TraceEntry} (hs : s.Running)
    (hhost : QuietHost s.stimulus) (h : run k s = .next t) (htr : t.trace = s.trace ++ tr) (hq : t.qcnt = 0#2) :
    splitFrames tr = framesFrom s (acceptedWords tr) := by
  induction k generalizing s tr with
  | zero =>
    cases h
    obtain rfl : tr = [] := by simpa using htr
    simp [splitFrames, framesFrom, acceptedWords, sentFrames, queue_of_qcnt_zero hq]
  | succ k ih =>
    obtain ⟨u, es, hstep, hrun, rfl, hes⟩ := run_succ_seen h htr
    obtain ⟨i, he, hr⟩ := hhost.exists_cycle
    have hrest := ih (hs.of_step hstep) (hhost.of_step hstep) hrun hes
    rw [acceptedWords_cons, stepEntry_of_cycle he]
    exact splitFrames_cons_of_step (hs.inv hs.resetSeen).queueCount he hr hstep hrest

/-! ### The status that a run shows -/

/-- The three status registers. -/
structure Status where
  active : Bool
  scheme : SchemeCode
  err : ErrCode

/-- The status registers of a state. -/
def State.status (s : State) : Status := ⟨s.active, s.scheme, s.err⟩

/-- What an accepted word does to the status registers (R25, R27, R36). -/
def Status.after (x : Status) (w : CmdWord) : Status :=
  match decode w with
  | .error e => { x with active := false, err := firstError x.err e }
  | .command c =>
    match opensFrame c with
    | some sc => { x with active := true, scheme := sc.code }
    | none => if x.active then x else { x with err := firstError x.err .bitOutsideFrame }

section
variable {s t : State} {i : Inputs} {w : CmdWord}

theorem Status.after_start (x : Status) (sc : Scheme) :
    x.after (encode (startInstr sc)) = { x with active := true, scheme := sc.code } := by simp [Status.after]

theorem Status.after_bit {x : Status} (ha : x.active = true) (d : Bit1) : x.after (encode (.bit d)) = x := by
  simp [Status.after, opensFrame, ha]

/-- A word with the cause of an error does to the status what the error action does. -/
theorem status_after_of_errorCause {e : ErrorKind} (h : ErrorCause s w e) :
    s.status.after w = (s.raiseError e).status := by
  rcases errorCause_iff.mp h with hd | ⟨rfl, ha, d, hd⟩
  · simp [Status.after, State.status, hd]
  · simp [Status.after, State.status, opensFrame, ha, hd]

/-- The status registers change by the accepted word alone. -/
theorem status_of_step (hhost : QuietHost s.stimulus) (h : step s = .next t) :
    t.status = (stepEntry s).accepted.toList.foldl Status.after s.status := by
  obtain ⟨i, he, hr⟩ := hhost.exists_cycle
  rw [stepEntry_of_cycle he, edge_accepted]
  rcases step_word_cases he hr h with ⟨ha, rfl⟩ | ⟨-, ha, hword⟩
  · simp [ha, State.status]
  · rw [if_pos ha, Option.toList_some, List.foldl_cons, List.foldl_nil]
    rcases hword with ⟨sc, hcmd, rfl⟩ | ⟨d, sc, hcmd, hact, -, rfl⟩ | ⟨e, hcause, rfl⟩
    · rw [hcmd, Status.after_start]
      simp [State.status]
    · rw [hcmd, Status.after_bit hact]
      simp [State.status]
    · rw [status_after_of_errorCause hcause]
      simp [State.status]

/-- What holds along a run from reset whose host drives cycles without reset: all of the trace is the run in progress,
and the status is what the accepted words made of it. -/
structure State.FromReset (s : State) : Prop where
  host : QuietHost s.stimulus
  quiet : s.trace.all TraceEntry.quiet = true
  status : s.status = (acceptedWords s.trace).foldl Status.after State.reset.status

theorem State.FromReset.of_step (hs : s.FromReset) (h : step s = .next t) : t.FromReset := by
  obtain ⟨-, htr⟩ := step_bookkeeping h
  refine ⟨hs.host.of_step h, ?_, ?_⟩
  · simp [htr, hs.quiet, hs.host.quiet_stepEntry]
  · rw [status_of_step hs.host h, hs.status, htr, acceptedWords_append, List.foldl_append, acceptedWords_cons,
      acceptedWords_nil, List.append_nil]

theorem State.FromReset.of_run {stim : List HostEvent} {k : Nat} (hhost : QuietHost stim)
    (h : run k (State.resetWith stim) = .next t) : t.FromReset :=
  run_keeps (P := State.FromReset) State.FromReset.of_step ⟨hhost, rfl, rfl⟩ h

/-- The observation of a run from reset with an empty queue, in terms of the accepted words alone. -/
theorem observation_of_run {stim : List HostEvent} {k : Nat} (hhost : QuietHost stim)
    (h : run k (State.resetWith stim) = .next t) (hq : t.qcnt = 0#2) :
    t.observation =
      let status := (acceptedWords t.trace).foldl Status.after State.reset.status
      { outside := []
        frames := (sentFrames (acceptedWords t.trace)).2.map lineFrame
        err := status.err
        active := status.active
        scheme := status.scheme } := by
  obtain ⟨-, hquiet, hstatus⟩ := State.FromReset.of_run hhost h
  have hsince : sinceReset t.trace = t.trace := sinceReset_append (a := []) hquiet
  have hsplit := splitFrames_of_run (State.resetWith_running hhost.noStop) hhost h (List.nil_append _).symm hq
  rw [State.observation, hsince, hsplit, ← hstatus]
  rfl

/-! ### The end of a run -/

/-- A host that, when it is done, takes samples for two cycles more brings the run to an end. -/
theorem exists_runEnded {stim : List HostEvent} (hs : s.Running)
    (hstim : s.stimulus = stim ++ [takeOnly, takeOnly]) :
    ∃ t, run (stim.length + 2) s = .next t ∧ t.runEnded := by
  induction stim generalizing s with
  | nil =>
    obtain ⟨t, tr, hrun, hdone, hq⟩ :=
      yields_takeOnly_twice (hs.inv hs.resetSeen).queueCount hs.resetSeen hstim
    exact ⟨t, hrun.ran, hq, by simp [hdone]⟩
  | cons e es ih =>
    obtain ⟨u, hstep, hu⟩ := hs.exists_step
    obtain ⟨t, hrun, ht⟩ := ih hu (by rw [(step_bookkeeping hstep).1, hstim]; rfl)
    refine ⟨t, ?_, ht⟩
    rw [List.length_cons, Nat.add_right_comm, run_succ_of_step hstep, hrun]

/-- A run that has ended after `n` cycles ended first after some number of cycles up to `n`. -/
theorem exists_runEndsAt {n : Nat} (h : ∃ t, run n s = .next t ∧ t.runEnded) :
    ∃ k t, k ≤ n ∧ RunEndsAt s k t := by
  classical
  have hex : ∃ k, ∃ t, run k s = .next t ∧ t.runEnded := ⟨n, h⟩
  obtain ⟨t, hrun, hend⟩ := Nat.find_spec hex
  exact ⟨Nat.find hex, t, Nat.find_min' hex h, hrun, hend,
    fun j u hj hu hended => Nat.find_min hex hj ⟨u, hu, hended⟩⟩

end

/-- Settles O60: with an empty queue the observation is a function of the accepted words, whose frames are those of the
line code; and two cycles that take samples empty the queue. -/
theorem runsShowTheFramesSent : Obligations.RunsShowTheFramesSent := by
  intro stim hhost
  refine ⟨fun k t h hq => ?_, fun stim' k k' t t' hhost' h h' hq hq' hwords => ?_, ?_⟩
  · rw [observation_of_run hhost h hq]
    exact ⟨rfl, rfl⟩
  · rw [observation_of_run hhost h hq, observation_of_run hhost' h' hq', hwords]
  · refine exists_runEndsAt (exists_runEnded (stim := stim) (State.resetWith_running ?_) rfl)
    simp [takeOnly, QuietHost.noStop (stim := stim) hhost]

end Sys2Proof.Machine
end

section
/-! SUPPORT. Single edges (spec/40_pipeline.md R96, R98, spec/70_reset_and_hazards.md R201, R202, R204): the step of an
accepted word, of a cycle without a handshake, of a cycle before reset and of a clock stop. -/

namespace Sys2Proof.Machine

section
variable {s : State} {i : Inputs} {rest : List HostEvent}

theorem handshakeBeforeReset_recordCycle (s : State) (i : Inputs) :
    handshakeBeforeReset (s.recordCycle i) i = handshakeBeforeReset s i := rfl

/-- Before the first reset edge a cycle in which the host offers a word or takes a sample is refused (R201). -/
theorem step_before_reset_refused (he : nextEvent s = .cycle i) (hseen : s.resetSeen = false) (hr : i.rst = false)
    (hhand : i.cmdValid = true ∨ i.outReady = true ∧ outValid s i = true) :
    step s = .refused .handshakeBeforeReset := by
  have hbefore : handshakeBeforeReset s i = true := by simpa [handshakeBeforeReset, hseen, hr] using hhand
  rw [step_of_cycle he, clockEdge, if_neg (by simp [hr]), if_pos ((handshakeBeforeReset_recordCycle s i).trans hbefore)]

/-- Before it a cycle in which the host does neither changes no register (log entry 10). -/
theorem step_before_reset_idle (he : nextEvent s = .cycle i) (hseen : s.resetSeen = false) (hr : i.rst = false)
    (hv : i.cmdValid = false) (hno : ¬(i.outReady = true ∧ outValid s i = true)) :
    step s = .next (s.recordCycle i) := by
  cases h : step s with
  | next t =>
    rcases step_cycle_cases he hr h with ⟨-, rfl⟩ | ⟨hyes, -⟩
    · have hd : delivers (s.recordCycle i) i = false :=
        Bool.eq_false_iff.mpr fun hd => hno (delivers_iff.mp hd).symm
      rw [afterDelivery_of_not_delivers hd]
    · simp [hseen] at hyes
  | fault r => cases r
  | refused r =>
    rcases step_refused_cases h with ⟨-, -, j, hj, -, hhand⟩ | ⟨-, hyes, -⟩
    · rw [he] at hj
      cases hj
      simp only [handshakeBeforeReset, hv, Bool.false_or, Bool.and_eq_true] at hhand
      exact absurd hhand.2 hno
    · simp [hseen] at hyes

end

/-! ### The obligations -/

/-- Settles O11: no scheme has a code above 8. -/
theorem bitUnderUnassignedCodeRefused : Obligations.BitUnderUnassignedCodeRefused := fun d _ ha hs =>
  exec_bit_unassigned ha (schemeOfCode_of_gt hs) d

/-- The phases of the samples of a bit: a single sample has phase 0, a pair has phases 0 and 1 (R136, R150). -/
theorem map_phase_sampleList (x : BitSamples) :
    (sampleList x).map Sample.phase = if (sampleList x).length = 1 then [0#1] else [0#1, 1#1] := by
  cases x <;> rfl

/-- Settles O20: the BIT is encoded by its scheme, which loads `samplesPerBit` samples; a stateless scheme does not look
at the carried level. -/
theorem samplesPerBitAndPhases : Obligations.SamplesPerBitAndPhases := by
  refine ⟨fun sc d s ha hs => ⟨encodeBit sc d s, exec_bit_inside ha hs d, by simp, by simp, ?_, by simp, ?_,
    fun hsc => ?_⟩, fun sc d p q hsc => symbolMap_samples_of_stateless hsc d p q⟩
  · rw [encodeBit_qcnt_eq]
    cases sc <;> rfl
  · have hphases := map_phase_sampleList (symbolMap sc d (polVal s.pol)).samples
    rw [length_sampleList_symbolMap] at hphases
    rw [encodeBit_queue, List.map_map, ← hphases]
    exact List.map_congr_left fun x _ => samplePhase_sampleWord x
  · rw [encodeBit_pol, symbolMap_carried_of_stateless hsc, polBit_polVal]

/-- Settles O24: the step of an accepted word executes what it decodes to. -/
theorem stepRunsTheAcceptedCommand : Obligations.StepRunsTheAcceptedCommand := by
  intro s i rest hs hseen _ hv hready
  have hstep := step_of_accepts (nextEvent_of_stimulus hs) hseen (accepts_iff.mpr ⟨hv, hready⟩)
  rw [recordCycle_of_stimulus hs] at hstep
  exact ⟨fun c hd => by rw [hstep, hd, execute_command], fun e hd => by rw [hstep, hd, execute_error]⟩

/-- Settles O27: after reset the queue is empty, so a BIT is accepted, and it finds no frame open. -/
theorem stateAfterReset : Obligations.StateAfterReset := by
  refine ⟨rfl, rfl, rfl, rfl, rfl, fun i hr => cmdReady_iff.mpr ⟨hr, .inl rfl⟩, fun d i rest hr hv hcmd => ?_⟩
  have ha : accepts (State.resetWith (.cycle i :: rest)) i = true := accepts_eq.mpr ⟨hv, hr, .inl rfl⟩
  have hcause : ErrorCause (State.resetWith (.cycle i :: rest)) i.cmd .bitOutsideFrame := by
    rw [hcmd]
    exact (errorCause_of_decode_command (decode_encode_bit d)).mpr ⟨rfl, rfl, d, rfl⟩
  refine ⟨_, step_of_errorCause rfl rfl ha hcause, ?_, rfl, queue_of_qcnt_zero ?_⟩
  · simp [State.resetWith, State.reset, errorCode]
  · exact qcnt_afterDelivery_of_accepts (s := (State.resetWith (.cycle i :: rest)).recordCycle i) ha

/-- Settles O29: without an accepted word the step is the delivery alone, and there is none. -/
theorem nothingHappensWithoutAHandshake : Obligations.NothingHappensWithoutAHandshake := by
  intro s i rest hs hseen hr hno hnodel
  have hd : delivers (s.recordCycle i) i = false := Bool.eq_false_iff.mpr (mt delivers_iff.mp hnodel)
  rw [step_of_not_accepts (nextEvent_of_stimulus hs) hseen hr (Bool.eq_false_iff.mpr (mt accepts_iff.mp hno)),
    afterDelivery_of_not_delivers hd, recordCycle_of_stimulus hs]

/-- Settles O33: a handshake before the first reset edge is refused, and a cycle without one only adds to the trace. -/
theorem handshakeBeforeResetRefused : Obligations.HandshakeBeforeResetRefused := fun _ _ hseen he hr =>
  ⟨step_before_reset_refused he hseen hr, step_before_reset_idle he hseen hr⟩

/-- Settles O34: the step of a clock stop is the loss of the registers. -/
theorem clockStopLosesTheRegisters : Obligations.ClockStopLosesTheRegisters := by
  intro s rest hs
  rw [step_of_clockStop (nextEvent_of_stimulus hs), State.record, hs]
  rfl

/-! ### A placed word (log entry 4) -/

/-- A word of five bits is read back from its number. -/
theorem commandWord_toNat (w : CmdWord) : commandWord 8 w.toNat = some w := by
  revert w
  decide

@[simp] theorem State.placeCommand_scheme (w : CmdWord) (s : State) : (s.placeCommand w).scheme = s.scheme := rfl
@[simp] theorem State.placeCommand_pol (w : CmdWord) (s : State) : (s.placeCommand w).pol = s.pol := rfl
@[simp] theorem State.placeCommand_active (w : CmdWord) (s : State) : (s.placeCommand w).active = s.active := rfl
@[simp] theorem State.placeCommand_err (w : CmdWord) (s : State) : (s.placeCommand w).err = s.err := rfl
@[simp] theorem State.placeCommand_q0 (w : CmdWord) (s : State) : (s.placeCommand w).q0 = s.q0 := rfl
@[simp] theorem State.placeCommand_q1 (w : CmdWord) (s : State) : (s.placeCommand w).q1 = s.q1 := rfl
@[simp] theorem State.placeCommand_resetSeen (w : CmdWord) (s : State) : (s.placeCommand w).resetSeen = true := rfl
@[simp] theorem State.placeCommand_stimulus (w : CmdWord) (s : State) :
    (s.placeCommand w).stimulus = offerWord w :: s.stimulus := rfl

/-- A placed command finds at most one sample waiting, which its own cycle delivers. -/
theorem accepts_placeCommand (w : CmdWord) (s : State) : accepts (s.placeCommand w) (offerInputs w) = true := by
  have hq : (s.placeCommand w).qcnt = 0#2 ∨ (s.placeCommand w).qcnt = 1#2 := by
    rw [State.placeCommand]
    split_ifs with h
    · exact h
    · exact .inl rfl
  exact accepts_eq.mpr ⟨rfl, rfl, hq.imp_right fun h => ⟨h, rfl⟩⟩

/-- Settles O25: the placed word is accepted, and executed on the state after the delivery. -/
theorem stepRunsThePlacedWord : Obligations.StepRunsThePlacedWord := by
  intro s w c hd
  have ha := accepts_placeCommand w s
  have hq0 : (((s.placeCommand w).recordCycle (offerInputs w)).afterDelivery (offerInputs w)).q0 = s.q0 :=
    afterDelivery_q0_of_accepts (s := (s.placeCommand w).recordCycle (offerInputs w)) ha
  refine ⟨((s.placeCommand w).recordCycle (offerInputs w)).afterDelivery (offerInputs w), ?_, ?_, by simp, by simp,
    by simp, by simp, qcnt_afterDelivery_of_accepts ha, hq0, by simp, by simp⟩
  · rw [State.withFetchWord, commandWord_toNat]
    exact (step_of_accepts (nextEvent_of_stimulus rfl) rfl ha).trans (by rw [offerInputs_cmd, hd, execute_command])
  · simp [decodeTableWord, commandWord_toNat, hd]

end Sys2Proof.Machine
end

section
/-! SUPPORT. The assembler of spec/30_encoding.md R81 to R83: its lines, their spellings, and the two
pseudo-instructions. -/

namespace Sys2Proof.Machine

/-! ### Lines and their words (R81) -/

/-- The word of a START line is the START's encoding. -/
theorem assembleLine_start (sc : Scheme) : assembleLine (.start sc) = .ok [encode (startInstr sc)] := by
  cases sc <;> rfl

theorem assembleLine_bit (d : Bit1) : assembleLine (.bit d) = .ok [encode (.bit d)] := by
  rcases bit1_cases d with rfl | rfl <;> rfl

theorem assembleLine_raw_of_le {v : Nat} (h : v ≤ 0x1F) : assembleLine (.raw v) = .ok [BitVec.ofNat 5 v] := if_pos h

theorem assembleLine_raw_of_gt {v : Nat} (h : 0x1F < v) : assembleLine (.raw v) = .error .wordTooWide :=
  if_neg (Nat.not_le.mpr h)

theorem toNat_encode_startInstr (sc : Scheme) : (encode (startInstr sc)).toNat = 0x10 + sc.code.toNat := by
  cases sc <;> rfl

/-! ### Spellings (R81) -/

theorem parseLine_start_mnemonic (sc : Scheme) :
    parseLine (['S', 'T', 'A', 'R', 'T', ' '] ++ schemeMnemonic sc) = .ok (some (.start sc)) := by
  cases sc <;> decide

theorem parseLine_start_lower (sc : Scheme) :
    parseLine (['s', 't', 'a', 'r', 't', ' '] ++ (schemeMnemonic sc).map Char.toLower) = .ok (some (.start sc)) := by
  cases sc <;> decide

theorem parseLine_start_name (sc : Scheme) :
    parseLine (['S', 'T', 'A', 'R', 'T', ' ', '"'] ++ schemeName sc ++ ['"']) = .ok (some (.start sc)) := by
  cases sc <;> decide

/-- Settles O58: each line by its own lemma; what follows a semicolon is not read. -/
theorem assemblerCommands : Obligations.AssemblerCommands := by
  refine ⟨fun sc => ⟨assembleLine_start sc, toNat_encode_startInstr sc⟩, assembleLine_bit, fun v hv => ?_,
    fun v hv => assembleLine_raw_of_gt hv,
    fun sc => ⟨parseLine_start_mnemonic sc, parseLine_start_lower sc, parseLine_start_name sc⟩,
    fun comment => ⟨rfl, rfl, rfl, rfl⟩⟩
  exact ⟨_, assembleLine_raw_of_le hv, by rw [BitVec.toNat_ofNat]; omega⟩

/-! ### The pseudo-instructions (R82, R83) -/

section
variable {bits : List Char}

theorem validBits_iff : validBits bits = true ↔ bits ≠ [] ∧ ∀ c ∈ bits, c = '0' ∨ c = '1' := by
  simp [validBits, isBinaryDigit]

theorem assembleLine_encode_of_valid (h : validBits bits = true) (sc : Scheme) :
    assembleLine (.encode sc bits) = .ok (frameWords sc (bits.map digitBit)) := if_pos h

theorem assembleLine_compare_of_valid (h : validBits bits = true) :
    assembleLine (.compare bits) = .ok (allSchemes.flatMap fun sc => frameWords sc (bits.map digitBit)) := if_pos h

/-- The BIT of a character. -/
theorem encode_digitBit (c : Char) :
    encode (.bit (digitBit c)) = if c = '1' then encode (.bit 1#1) else encode (.bit 0#1) := by
  unfold digitBit
  split <;> rfl

theorem frameWords_digits (sc : Scheme) (bits : List Char) : frameWords sc (bits.map digitBit) =
    encode (startInstr sc) :: bits.map fun c => if c = '1' then encode (.bit 1#1) else encode (.bit 0#1) := by
  simp [frameWords, encode_digitBit]

/-- ENCODE lines under a list of schemes are the frames one after the other. -/
theorem assembleLines_encode_of_valid (h : validBits bits = true) (scs : List Scheme) :
    assembleLines (scs.map fun sc => AsmLine.encode sc bits) =
      .ok (scs.flatMap fun sc => frameWords sc (bits.map digitBit)) := by
  induction scs with
  | nil => rfl
  | cons sc scs ih =>
    rw [List.map_cons, assembleLines, assembleLine_encode_of_valid h, ih]
    rfl

end

/-- Settles O59: ENCODE is the frame of its bits, COMPARE the nine frames in code order. -/
theorem pseudoInstructions : Obligations.PseudoInstructions := by
  refine ⟨fun sc bits h => ?_, fun bits h => ?_, fun bits => validBits_iff, fun sc bits h => ?_, rfl⟩
  · rw [assembleLine_encode_of_valid h, frameWords_digits]
  · exact (assembleLine_compare_of_valid h).trans (assembleLines_encode_of_valid h allSchemes).symm
  · exact ⟨if_neg (ne_true_of_eq_false h), if_neg (ne_true_of_eq_false h)⟩

end Sys2Proof.Machine
end
